-- ==== Sys2Proof/Word.lean ====
section
/-! DEFINITION. The word types of the core (00_scope R6). -/

namespace Sys2Proof

/-- A byte of a byte string, of DBUF or of NUMOUT. -/
abbrev Byte := BitVec 8

/-- A *word* is 32 bits (R6): a hash word, a bus data word, a command word. -/
abbrev Word := BitVec 32

/-- The 64-bit register NUM (10_state R27). -/
abbrev DWord := BitVec 64

/-- A window offset: a request carries `off[12:0]` (20_memory R51). -/
abbrev Offset := BitVec 13

end Sys2Proof
end

