-- ==== Sys2Proof/Machine/Bytes.lean ====
section
/-! DEFINITION. Byte order: the little-endian packing of the bus (20_memory R55, R57), the big-endian words of SHA-256
(20_memory R58, 00_scope R7), and the two readings of a 64-bit word (00_scope R9). -/

namespace Sys2Proof.Machine

/-- Four bytes, lowest index first, as a bus word: the lowest index is bits [7:0] (20_memory R55). -/
def leWord (b0 b1 b2 b3 : Byte) : Word := b3 ++ b2 ++ b1 ++ b0

/-- Byte `k` of a bus word: bits [8k+7 : 8k] (20_memory R57). -/
def wordByte (w : Word) (k : Nat) : Byte := w.extractLsb' (8 * k) 8

/-- Four bytes, lowest index first, as a big-endian word (10_state R24, 40_sha256 R111). -/
def beWord (b0 b1 b2 b3 : Byte) : Word := b0 ++ b1 ++ b2 ++ b3

/-- `be32(w)`, the 4-byte big-endian representation of a word (00_scope R7). -/
def be32 (w : Word) : List Byte :=
  [w.extractLsb' 24 8, w.extractLsb' 16 8, w.extractLsb' 8 8, w.extractLsb' 0 8]

/-- `be64(n)`, the 8-byte big-endian representation: `be64(n)[k] = n[63-8k : 56-8k]` (00_scope R7). -/
def be64 (n : Nat) : List Byte :=
  (List.range 8).map fun k => BitVec.ofNat 8 (n / 2 ^ (56 - 8 * k))

/-- `sint64(x)`: `x` if `x` < 2^63, else `x − 2^64` (00_scope R9). -/
def sint64 (x : DWord) : Int := if x.toNat < 2 ^ 63 then x.toNat else (x.toNat : Int) - 2 ^ 64

/-- `twos64(v)`: the 64-bit two's-complement word of `v` (00_scope R9). -/
def twos64 (v : Int) : DWord := BitVec.ofInt 64 v

end Sys2Proof.Machine
end

