-- ==== Sys2Proof/Config.lean ====
section
/-! DEFINITION. What an implementation fixes (00_scope R5) and the free values: constants with no body, so nothing
can be proved of what they are. -/

namespace Sys2Proof

/-- `MAX_ELEMENT_SIZE`, 520 bytes (R5): the lower bound of `BUF_BYTES`. -/
def Config.maxElementSize : Nat := 520

/-- The default of `BUF_BYTES` (R5, 92_eei_decisions D13). The value of a machine is in its PARAM register (log 3). -/
def Config.defaultBufBytes : Nat := 520

/-- The legal values of `BUF_BYTES`: a multiple of 4 with 520 ≤ `BUF_BYTES` ≤ 4096 (R5, 93 U5). -/
abbrev Config.ValidBufBytes (n : Nat) : Prop := Config.maxElementSize ≤ n ∧ n ≤ 4096 ∧ n % 4 = 0

/-- FREE (OPEN parameter `BASE`, R5, 20_memory R61; log 4): which 8192-byte page of the bus the window is in. -/
opaque Config.basePage : Nat

/-- `BASE`, aligned to 8192 (R5). -/
def Config.base : Nat := 8192 * Config.basePage

/-- FREE (10_state R40, 93 U2; logs 6, 7): the n-th 32-bit value drawn. -/
opaque Config.freeWord : Nat → Word

/-- FREE (41_numcodec R170, 93 U1; log 6): the n-th exact integer drawn. -/
opaque Config.freeInt : Nat → Int

/-- FREE (10_state R37, 93 U1; log 5): what the byte of DBUF at an index holds after the given reset,
until it is written. -/
opaque Config.unwrittenByte : Nat → Nat → Byte

end Sys2Proof
end

