-- ==== Sys2Proof/Machine/Bus.lean ====
section
/-! DEFINITION. The 32-bit target port (20_memory R50 to R52) and the register map (10_state R22). -/

namespace Sys2Proof.Machine

/-- The direction of a request (20_memory R51), with the data word of a write. -/
inductive Access where
  | read
  | write (v : Word)
deriving DecidableEq, Repr

/-- The sizes a request may carry: 1, 2 or 4 bytes (20_memory R51). -/
inductive AccessSize where
  | byte
  | half
  | word
deriving DecidableEq, Repr

/-- One request at the port (20_memory R51). -/
structure BusRequest where
  off : Offset
  size : AccessSize
  access : Access
deriving DecidableEq, Repr

/-- The response to a request: a read word (on a read) and an error bit (20_memory R51). -/
structure BusResponse where
  data : Option Word
  error : Bool
deriving DecidableEq, Repr

/-- The registers of the window (10_state R22), with the words of DBUF (20_memory R57). -/
inductive Reg where
  | cmd
  | status
  | len
  | numlen
  | numLo
  | numHi
  | param
  | h (i : Fin 8)
  | blk (j : Fin 16)
  | numout0
  | numout1
  | numout2
  | dbuf (i : Nat)
deriving DecidableEq, Repr

/-- "A request is legal when its size is 4 and `off[1:0] = 0`" (20_memory R52). -/
def BusRequest.legal (r : BusRequest) : Bool :=
  r.size == .word && r.off.extractLsb' 0 2 == 0#2

/-- The offset of a register (10_state R22). -/
def Reg.offset : Reg → Nat
  | .cmd => 0x000
  | .status => 0x004
  | .len => 0x008
  | .numlen => 0x00C
  | .numLo => 0x010
  | .numHi => 0x014
  | .param => 0x018
  | .h i => 0x020 + 4 * i.val
  | .blk j => 0x040 + 4 * j.val
  | .numout0 => 0x080
  | .numout1 => 0x084
  | .numout2 => 0x088
  | .dbuf i => 0x1000 + 4 * i

/-- The register at an offset, given `BUF_BYTES` (the case list of 20_memory R53 and R54); `none` is reserved space
(R56). The offset of a legal request is a multiple of 4. -/
def regAt (bufBytes : Nat) (off : Offset) : Option Reg :=
  let o := off.toNat
  if o = 0x000 then some .cmd
  else if o = 0x004 then some .status
  else if o = 0x008 then some .len
  else if o = 0x00C then some .numlen
  else if o = 0x010 then some .numLo
  else if o = 0x014 then some .numHi
  else if o = 0x018 then some .param
  else if 0x020 ≤ o ∧ o < 0x040 then some (.h (Fin.ofNat 8 ((o - 0x020) / 4)))
  else if 0x040 ≤ o ∧ o < 0x080 then some (.blk (Fin.ofNat 16 ((o - 0x040) / 4)))
  else if o = 0x080 then some .numout0
  else if o = 0x084 then some .numout1
  else if o = 0x088 then some .numout2
  else if 0x1000 ≤ o ∧ o - 0x1000 < bufBytes then some (.dbuf ((o - 0x1000) / 4))
  else none

/-- Whether a register's read is defined while BUSY = 1: STATUS, PARAM and CMD are, every other register is not
(10_state R40, 20_memory R53). -/
def Reg.definedWhileBusy : Reg → Bool
  | .cmd | .status | .param => true
  | .len | .numlen | .numLo | .numHi | .h _ | .blk _ | .numout0 | .numout1 | .numout2 | .dbuf _ => false

/-- The bus address of an offset of the window: `BASE` plus the offset (20_memory R50, R61). -/
def busAddress (off : Offset) : Nat := Config.base + off.toNat

/-- The platform's decode: the offset an address of the bus has in the window, `none` outside it (20_memory R50,
60_exceptions R214: the core places nothing outside its window). -/
def windowOffset (addr : Nat) : Option Offset :=
  if Config.base ≤ addr ∧ addr < Config.base + 8192 then some (BitVec.ofNat 13 (addr - Config.base)) else none

end Sys2Proof.Machine
end

