-- ==== Sys2Proof/Syntax.lean ====
section
/-! DEFINITION. The commands of the core: one constructor per row of spec/opcode_table.json (30_encoding R82). A
command has no immediate, register-number or mode field (R81). -/

namespace Sys2Proof

/-- The five commands (30_encoding R82). -/
inductive Instr where
  /-- SHA_INIT, 40_sha256 R140. -/
  | shaInit
  /-- SHA_COMPRESS, 40_sha256 R141. -/
  | shaCompress
  /-- SHA_HASH, 40_sha256 R142. -/
  | shaHash
  /-- NUM_DECODE, 41_numcodec R170. -/
  | numDecode
  /-- NUM_ENCODE, 41_numcodec R171. -/
  | numEncode
deriving DecidableEq, Repr

end Sys2Proof
end

