-- ==== Sys2Proof/Decode.lean ====
section
/-! DEFINITION. Decoding a command word, total over all 2^32 words and rejecting by name (30_encoding R80 to R85), and
the encoder. -/

namespace Sys2Proof

/-- Why a word is Illegal (30_encoding R83, R84). Both are reported as ILLEGAL_CMD (60_exceptions R201). -/
inductive IllegalWord where
  /-- RSV = c[31:8] is not 0. -/
  | reservedBitsSet
  /-- RSV = 0 and OP is none of the five values. -/
  | unassignedOp
deriving DecidableEq, Repr

/-- The field OP, c[7:0] (30_encoding R80). -/
def opField (c : Word) : BitVec 8 := c.extractLsb' 0 8

/-- The field RSV, c[31:8] (30_encoding R80). -/
def rsvField (c : Word) : BitVec 24 := c.extractLsb' 8 24

/-- The command of an operation code (30_encoding R82). -/
def opInstr (op : BitVec 8) : Option Instr :=
  if op = 0x01#8 then some .shaInit
  else if op = 0x02#8 then some .shaCompress
  else if op = 0x03#8 then some .shaHash
  else if op = 0x10#8 then some .numDecode
  else if op = 0x11#8 then some .numEncode
  else none

/-- `Decode(c)` (30_encoding R83). -/
def decode (c : Word) : Except IllegalWord Instr :=
  if rsvField c = 0#24 then
    match opInstr (opField c) with
    | some i => .ok i
    | none => .error .unassignedOp
  else .error .reservedBitsSet

/-- The operation code of a command, from the opcode map (30_encoding R82). -/
def instrOp : Instr → BitVec 8
  | .shaInit => 0x01#8
  | .shaCompress => 0x02#8
  | .shaHash => 0x03#8
  | .numDecode => 0x10#8
  | .numEncode => 0x11#8

/-- The word of a command: RSV = 0 above OP (30_encoding R80, R82). -/
def encode (i : Instr) : Word := 0#24 ++ instrOp i

/-- The command the decoder reads from an instruction of the opcode table whose bits are `w`, the bits above `nbits`
being 0. A command is one 32-bit word (30_encoding R85), so a longer instruction is none (log 21). -/
def decodeTableWord (nbits w : Nat) : Option Instr :=
  if 32 < nbits then none
  else
    match decode (BitVec.ofNat 32 (w % 2 ^ nbits)) with
    | .ok i => some i
    | .error _ => none

end Sys2Proof
end

