-- ==== Sys2Proof/Machine/HostProgram.lean ====
section
/-! DEFINITION. Host programs (30_encoding R90, R91, R95): the lines a host program is written in, and their expansion
into what the host agent runs. A line is kept as data; its text form (`WR H0, 0x…`) is not parsed. -/

namespace Sys2Proof.Machine

/-- What an EXPECT line asserts: a value that was read, or a register, equals a word (30_encoding R91). -/
inductive Expectation where
  | value (name : String) (v : Word)
  | reg (r : Reg) (v : Word)
deriving DecidableEq, Repr

/-- What the host agent runs: one bus transaction a step, the POLL loop, or an assertion. -/
inductive HostLine where
  /-- One request at the port; the word read is bound to the name, if there is one. -/
  | bus (r : BusRequest) (dst : Option String)
  /-- `L: RD STATUS -> s`, repeated from `L` while `s[0] = 1` (30_encoding R91). -/
  | poll (dst : String)
  /-- Not a bus access (30_encoding R91). -/
  | expect (e : Expectation)
deriving DecidableEq, Repr

/-- The lines of a host program as they are written (30_encoding R90, R91), and one request the syntax cannot spell,
such as a byte write (20_memory R51, R52). -/
inductive AsmLine where
  | wr (r : Reg) (v : Word)
  | rd (r : Reg) (name : String)
  | cmd (i : Instr)
  | poll
  | wrmsg (m : List Byte)
  | wrblk (b : List Byte)
  | wrnum (v : Int)
  | expect (e : Expectation)
  | request (r : BusRequest)
deriving DecidableEq, Repr

/-- `WR <reg>, <imm32>`: a write at the register's offset (30_encoding R90). -/
def wrLine (r : Reg) (v : Word) : HostLine := .bus ⟨BitVec.ofNat 13 r.offset, .word, .write v⟩ none

/-- `RD <reg> -> <name>`: a read at the register's offset (30_encoding R90). -/
def rdLine (r : Reg) (name : String) : HostLine := .bus ⟨BitVec.ofNat 13 r.offset, .word, .read⟩ (some name)

/-- Byte `k` of a byte string, "a byte past n is taken as 0" (30_encoding R91). -/
def strByte (m : List Byte) (k : Nat) : Byte := m.getD k 0#8

/-- The expansion of a line (30_encoding R91). -/
def AsmLine.expand : AsmLine → List HostLine
  | .wr r v => [wrLine r v]
  | .rd r name => [rdLine r name]
  | .cmd i => [wrLine .cmd (encode i)]
  | .poll => [.poll "s"]
  | .wrmsg m =>
    ((List.range ((m.length + 3) / 4)).map fun i =>
      wrLine (.dbuf i) (leWord (strByte m (4 * i)) (strByte m (4 * i + 1)) (strByte m (4 * i + 2)) (strByte m (4 * i + 3))))
      ++ [wrLine .len (BitVec.ofNat 32 m.length)]
  | .wrblk b =>
    (List.finRange 16).map fun j =>
      wrLine (.blk j) (beWord (strByte b (4 * j)) (strByte b (4 * j + 1)) (strByte b (4 * j + 2)) (strByte b (4 * j + 3)))
  | .wrnum v => [wrLine .numLo ((twos64 v).extractLsb' 0 32), wrLine .numHi ((twos64 v).extractLsb' 32 32)]
  | .expect e => [.expect e]
  | .request r => [.bus r none]

/-- A host program: its lines in order (30_encoding R95). -/
def assemble (p : List AsmLine) : List HostLine := p.flatMap AsmLine.expand

end Sys2Proof.Machine
end

