-- ==== Sys2Proof/Machine/State.lean ====
section
/-! DEFINITION. Everything the spec gives the machine (10_state), the host agent and the order of moves (10_state R20),
the free-value counters, and the state right after reset (10_state R37, 70_reset_and_hazards R230). -/

namespace Sys2Proof.Machine

/-- The error codes (60_exceptions R201). Codes 4 to 15 are "never produced by this revision" (log 18). -/
inductive ErrCode where
  | none
  | illegalCmd
  | lenRange
  | numRange
deriving DecidableEq, Repr

/-- The fields of STATUS (10_state R29). Bit 3 and bits 31:8 are reserved and read 0: they hold nothing. -/
structure Status where
  busy : Bool
  err : Bool
  drop : Bool
  code : ErrCode
deriving DecidableEq, Repr

/-- Who moves next (10_state R20): the host, the core, or the reset input. -/
inductive Turn where
  | host
  | core
  | assertReset
  | releaseReset
deriving DecidableEq, Repr

/-- The machine. -/
structure State where
  /-- `H[0..7]`, the hash state (10_state R23). -/
  h : Vector Word 8
  /-- `BLK[0..15]`, one message block (10_state R24). -/
  blk : Vector Word 16
  /-- `DBUF`: the bytes written since reset, by index (10_state R25, 93 U1). -/
  dbuf : List Host.Cell
  /-- `LEN` (10_state R26). -/
  len : BitVec 16
  /-- `NUM` (10_state R27). -/
  num : DWord
  /-- `NUMOUT[0..8]` (10_state R28). -/
  numout : Vector Byte 9
  /-- `NUMLEN` (10_state R28). -/
  numlen : BitVec 4
  /-- `STATUS` (10_state R29). -/
  status : Status
  /-- `PENDING`, the command word in progress (10_state R30). -/
  pending : Option Word
  /-- `PARAM`: the constant `BUF_BYTES` (10_state R33; log 3). -/
  param : BitVec 16
  /-- The reset input is asserted (20_memory R51, 70_reset_and_hazards R230). -/
  rst : Bool
  /-- The port's response to the last request (20_memory R51; log 10). -/
  resp : Option BusResponse
  /-- The host agent: the lines it has still to run (30_encoding R95; log 16). -/
  program : List HostLine
  /-- The host agent: the values it has read, the latest first (30_encoding R90). -/
  names : List (String × Word)
  /-- The host agent: the outcomes of the EXPECT lines, the latest first (30_encoding R91). -/
  checks : List Bool
  /-- Who moves next; when empty, the core if a command is pending, else the host (log 2). -/
  turns : List Turn
  /-- The model's own: how many free values have been drawn (log 8). -/
  draws : Nat
  /-- The model's own: how many resets there have been (log 8). -/
  epoch : Nat
deriving DecidableEq, Repr

/-- Why a step stops. No command's meaning stops. -/
inductive Fault where
  /-- The host makes a bus request while reset is asserted: "The platform must not issue them" (70_reset_and_hazards
  R230, 93 U9 `stuck`). Raised by the host's step; safe (log 12). -/
  | requestDuringReset
  /-- BUSY = 1 and PENDING holds no valid command word. Raised by the core's step; no run reaches it (60_exceptions
  R202); safe (log 13). -/
  | noValidPending
deriving DecidableEq, Repr

/-- Why an instruction has no meaning. -/
inductive Refusal where
  /-- An instruction with no meaning yet, by its mnemonic; raised by exec's arms; safe. No arm is refused. -/
  | notModelled (mnemonic : String)
deriving DecidableEq, Repr

/-- STATUS = 0x00000000 (10_state R37). -/
def Status.idle : Status := ⟨false, false, false, .none⟩

/-- The machine right after reset (10_state R37), with the default `BUF_BYTES` (00_scope R5), a host with no program
and no turn fixed. -/
def State.reset : State where
  h := #v[0, 0, 0, 0, 0, 0, 0, 0]
  blk := #v[0, 0, 0, 0, 0, 0, 0, 0, 0, 0, 0, 0, 0, 0, 0, 0]
  dbuf := []
  len := 0
  num := 0
  numout := #v[0, 0, 0, 0, 0, 0, 0, 0, 0]
  numlen := 0
  status := Status.idle
  pending := none
  param := BitVec.ofNat 16 Config.defaultBufBytes
  rst := false
  resp := none
  program := []
  names := []
  checks := []
  turns := []
  draws := 0
  epoch := 0

end Sys2Proof.Machine
end

