-- ==== Sys2Proof/Machine/Flags.lean ====
section
/-! DEFINITION. STATUS: its value as a word (10_state R29) and every way it changes (60_exceptions R202, R203, R206,
70_reset_and_hazards R232). -/

namespace Sys2Proof.Machine

/-- The value of ERRCODE (60_exceptions R201). -/
def ErrCode.bits : ErrCode → BitVec 4
  | .none => 0#4
  | .illegalCmd => 1#4
  | .lenRange => 2#4
  | .numRange => 3#4

/-- STATUS[7:0]: BUSY is bit 0, ERR bit 1, DROP bit 2, bit 3 reads 0, ERRCODE is bits 7:4 (10_state R29). -/
def Status.byte (t : Status) : Byte :=
  t.code.bits ++ 0#1 ++ BitVec.ofBool t.drop ++ BitVec.ofBool t.err ++ BitVec.ofBool t.busy

/-- A write while BUSY = 1 sets DROP (20_memory R54, 70_reset_and_hazards R232). -/
def Status.dropped (t : Status) : Status := { t with drop := true }

/-- A launch attempt with an illegal word: DROP ← 0, ERR ← 1, ERRCODE ← 1 (60_exceptions R202). -/
def Status.illegalLaunch (t : Status) : Status := { t with drop := false, err := true, code := .illegalCmd }

/-- An accepted launch: DROP ← 0, ERR ← 0, ERRCODE ← 0, BUSY ← 1 (60_exceptions R202). -/
def Status.launched (t : Status) : Status := { t with drop := false, err := false, code := .none, busy := true }

/-- Completion without error: ERR ← 0, ERRCODE ← 0, BUSY ← 0 (60_exceptions R206). -/
def Status.completed (t : Status) : Status := { t with err := false, code := .none, busy := false }

/-- Completion with an error: ERR ← 1, ERRCODE ← code, BUSY ← 0 (60_exceptions R203). -/
def Status.failed (t : Status) (code : ErrCode) : Status := { t with err := true, code := code, busy := false }

end Sys2Proof.Machine
end

