-- ==== Sys2Proof/Machine/Ops.lean ====
section
/-! DEFINITION. The named operations over DBUF and the registers, ending a command (60_exceptions R203, R206), and
launching one (R202). -/

namespace Sys2Proof.Machine

/-- A buffer as the list of its written bytes, by index. -/
abbrev Memory := List Host.Cell

/-- The byte at an index, `none` if it was never written since reset (93 U1). -/
def Memory.read : Memory → Nat → Option Byte
  | [], _ => none
  | (a, b) :: m, k => if k = a then some b else Memory.read m k

/-- Writes one byte, keeping the indexes strictly rising. -/
def Memory.write : Memory → Nat → Byte → Memory
  | [], k, v => [(k, v)]
  | (a, b) :: m, k, v =>
    if k < a then (k, v) :: (a, b) :: m
    else if k = a then (k, v) :: m
    else (a, b) :: Memory.write m k v

/-- The canonical form: the indexes strictly rise. An unlisted index holds no value, so any byte may be listed. -/
def Memory.wf : Memory → Bool
  | [] => true
  | [_] => true
  | (a, _) :: (a', b') :: m => decide (a < a') && Memory.wf ((a', b') :: m)

/-- `BUF_BYTES`, the value of PARAM[15:0] (10_state R33). -/
def State.bufBytes (s : State) : Nat := s.param.toNat

/-- Byte `k` of DBUF as a bus read sees it while BUSY = 0: what was last written, or the UNSPECIFIED byte reset left
there (10_state R37, 93 U1; log 5). -/
def State.dbufByte (s : State) (k : Nat) : Byte :=
  match Memory.read s.dbuf k with
  | some b => b
  | none => Config.unwrittenByte s.epoch k

/-- Word `i` of DBUF (20_memory R53, R57). -/
def State.dbufWord (s : State) (i : Nat) : Word :=
  leWord (s.dbufByte (4 * i)) (s.dbufByte (4 * i + 1)) (s.dbufByte (4 * i + 2)) (s.dbufByte (4 * i + 3))

/-- Writes word `i` of DBUF: `DBUF[4i] <- v[7:0]` up to `DBUF[4i+3] <- v[31:24]` (20_memory R54). -/
def State.setDbufWord (s : State) (i : Nat) (v : Word) : State :=
  { s with
    dbuf := Memory.write (Memory.write (Memory.write (Memory.write s.dbuf
      (4 * i) (wordByte v 0)) (4 * i + 1) (wordByte v 1)) (4 * i + 2) (wordByte v 2)) (4 * i + 3) (wordByte v 3) }

/-- `complete()`: the command ends without error (60_exceptions R206). -/
def State.complete (s : State) : State := { s with status := s.status.completed, pending := none }

/-- `raise CmdError(code)`: the command ends with an error, and nothing else of the state changes (60_exceptions R203).
This is all the exception entry the core has: it saves no state, takes no vector and changes no mode (R208). -/
def State.raise (s : State) (code : ErrCode) : State :=
  { s with status := s.status.failed code, pending := none }

/-- `Launch(c)` (60_exceptions R202). -/
def State.launch (s : State) (c : Word) : State :=
  match decode c with
  | .error _ => { s with status := s.status.illegalLaunch }
  | .ok _ => { s with status := s.status.launched, pending := some c }

/-- What a read of a register returns while BUSY = 0 (20_memory R53). -/
def State.readReg (s : State) : Reg → Word
  | .cmd => 0#32
  | .status => s.status.byte.setWidth 32
  | .len => s.len.setWidth 32
  | .numlen => s.numlen.setWidth 32
  | .numLo => s.num.extractLsb' 0 32
  | .numHi => s.num.extractLsb' 32 32
  | .param => s.param.setWidth 32
  | .h i => s.h[i]
  | .blk j => s.blk[j]
  | .numout0 => leWord s.numout[0] s.numout[1] s.numout[2] s.numout[3]
  | .numout1 => leWord s.numout[4] s.numout[5] s.numout[6] s.numout[7]
  | .numout2 => (s.numout[8]).setWidth 32
  | .dbuf i => s.dbufWord i

/-- What a write of a register does while BUSY = 0 (20_memory R54): CMD launches, a read-only register ignores it. -/
def State.writeReg (s : State) (r : Reg) (v : Word) : State :=
  match r with
  | .cmd => s.launch v
  | .len => { s with len := v.extractLsb' 0 16 }
  | .numLo => { s with num := s.num.extractLsb' 32 32 ++ v }
  | .numHi => { s with num := v ++ s.num.extractLsb' 0 32 }
  | .h i => { s with h := s.h.set i v }
  | .blk j => { s with blk := s.blk.set j v }
  | .dbuf i => s.setDbufWord i v
  | .status | .numlen | .param | .numout0 | .numout1 | .numout2 => s

/-- Draws a fresh free word (log 7). -/
def State.drawWord (s : State) : Word × State := (Config.freeWord s.draws, { s with draws := s.draws + 1 })

/-- `BusRead(off)` for a legal request (20_memory R53): the word returned, and the state, of which nothing but the
model's draw counter changes. -/
def State.busRead (s : State) (off : Offset) : Word × State :=
  match regAt s.bufBytes off with
  | none => (0#32, s)
  | some r => if s.status.busy && !r.definedWhileBusy then s.drawWord else (s.readReg r, s)

/-- `BusWrite(off, v)` for a legal request (20_memory R54). -/
def State.busWrite (s : State) (off : Offset) (v : Word) : State :=
  if s.status.busy then { s with status := s.status.dropped }
  else
    match regAt s.bufBytes off with
    | none => s
    | some r => s.writeReg r v

/-- One request at the port, and the response it gets: an illegal request gets an error response, a read of it data 0,
and "no other effect" (20_memory R51, R52; logs 9, 10). -/
def State.request (s : State) (r : BusRequest) : State :=
  if r.legal then
    match r.access with
    | .read => { (s.busRead r.off).2 with resp := some ⟨some (s.busRead r.off).1, false⟩ }
    | .write v => { s.busWrite r.off v with resp := some ⟨none, false⟩ }
  else
    match r.access with
    | .read => { s with resp := some ⟨some 0#32, true⟩ }
    | .write _ => { s with resp := some ⟨none, true⟩ }

/-- The registers at their reset values (10_state R37): everything but PARAM, which is a constant. DBUF holds no
written byte, and its unspecified contents are new ones. -/
def State.resetRegisters (s : State) : State :=
  { s with
    h := State.reset.h, blk := State.reset.blk, dbuf := [], len := 0, num := 0, numout := State.reset.numout,
    numlen := 0, status := Status.idle, pending := none, epoch := s.epoch + 1 }

end Sys2Proof.Machine
end

