-- ==== Sys2Proof/Machine/Operands.lean ====
section
/-! DEFINITION. The operands of the commands (30_encoding R81, 20_memory R69): a byte string in DBUF, the number in NUM,
and the free results of a command whose byte string was not all written. -/

namespace Sys2Proof.Machine

/-- The bytes of a buffer from index `k` on, `n` of them; `none` if one was never written since reset. -/
def Memory.readString (m : Memory) (k : Nat) : Nat → Option (List Byte)
  | 0 => some []
  | n + 1 =>
    match Memory.read m k, Memory.readString m (k + 1) n with
    | some b, some bs => some (b :: bs)
    | _, _ => none

/-- The byte-string operand `DBUF[0] ‖ … ‖ DBUF[LEN−1]` (40_sha256 R142, 41_numcodec R170); `none` if a byte of it was
never written since reset, in which case the command's result is UNSPECIFIED (log 6). -/
def State.operandBytes (s : State) : Option (List Byte) := Memory.readString s.dbuf 0 s.len.toNat

/-- `LEN > BUF_BYTES`, the cause of LEN_RANGE (60_exceptions R201). -/
def State.lenOutOfRange (s : State) : Bool := s.bufBytes < s.len.toNat

/-- The operand of NUM_ENCODE: `sint64(NUM)` (41_numcodec R171). -/
def State.operandNum (s : State) : Int := sint64 s.num

/-- An UNSPECIFIED hash state: eight fresh free words (40_sha256 R142; log 6). -/
def State.drawHash (s : State) : Vector Word 8 × State :=
  (#v[Config.freeWord s.draws, Config.freeWord (s.draws + 1), Config.freeWord (s.draws + 2),
      Config.freeWord (s.draws + 3), Config.freeWord (s.draws + 4), Config.freeWord (s.draws + 5),
      Config.freeWord (s.draws + 6), Config.freeWord (s.draws + 7)],
    { s with draws := s.draws + 8 })

/-- An UNSPECIFIED decoded value: a fresh free integer, in or out of range (41_numcodec R170; log 6). -/
def State.drawInt (s : State) : Int × State := (Config.freeInt s.draws, { s with draws := s.draws + 1 })

end Sys2Proof.Machine
end

