-- ==== Sys2Proof/Machine/NumCodec.lean ====
section
/-! DEFINITION. ScriptNumber decode and encode (41_numcodec R160 to R169) and the meanings of NUM_DECODE and NUM_ENCODE
(R170, R171). -/

namespace Sys2Proof.Machine

/-- The magnitude: the positional sum of the bytes, the sign bit 0x80 masked out of the last (41_numcodec R160, R161).
`b[0]` is the least significant byte. -/
def scriptMagnitude : List Byte → Nat
  | [] => 0
  | [last] => (last &&& 0x7F#8).toNat
  | b :: b' :: bs => b.toNat + 256 * scriptMagnitude (b' :: bs)

/-- The sign: bit 7 of the last byte (41_numcodec R161). -/
def scriptNegative (b : List Byte) : Bool :=
  match b.getLast? with
  | some last => last &&& 0x80#8 != 0#8
  | none => false

/-- `decode(b)`, exact: every length and every byte pattern is accepted (41_numcodec R160, R162). -/
def scriptDecode (b : List Byte) : Int :=
  if scriptNegative b then -(scriptMagnitude b : Int) else scriptMagnitude b

/-- The little-endian magnitude bytes, as `while mag > 0` emits them (41_numcodec R165). `fuel` bounds the loop: `mag`
itself is always enough. -/
def magnitudeBytes : Nat → Nat → List Byte
  | 0, _ => []
  | fuel + 1, mag => if mag = 0 then [] else BitVec.ofNat 8 (mag % 256) :: magnitudeBytes fuel (mag / 256)

/-- The sign put on magnitude bytes: a sign byte after the last if its high bit is set, else the sign bit in it
(41_numcodec R165). -/
def putSign (neg : Bool) : List Byte → List Byte
  | [] => []
  | [last] =>
    if last &&& 0x80#8 != 0#8 then [last, if neg then 0x80#8 else 0x00#8]
    else if neg then [last ||| 0x80#8]
    else [last]
  | b :: b' :: bs => b :: putSign neg (b' :: bs)

/-- `encode(v)` (41_numcodec R165). -/
def scriptEncode (v : Int) : List Byte :=
  if v = 0 then [] else putSign (decide (v < 0)) (magnitudeBytes v.natAbs v.natAbs)

/-- −2^63 ≤ v ≤ 2^63−1: the values a decode succeeds with (41_numcodec R164). -/
def inS64 (v : Int) : Bool := decide (-2 ^ 63 ≤ v) && decide (v ≤ 2 ^ 63 - 1)

/-- The end of NUM_DECODE, for the exact value: NUM_RANGE outside `s64`, else `NUM <- twos64(v)` (41_numcodec R164,
R170). -/
def State.finishDecode (s : State) (v : Int) : State :=
  if inS64 v then { s with num := twos64 v }.complete else s.raise .numRange

/-- `NUMOUT[k] <- (k < len(e)) ? e[k] : 0x00` for k = 0 to 8 (41_numcodec R171). -/
def encodeOut (e : List Byte) : Vector Byte 9 :=
  #v[e.getD 0 0, e.getD 1 0, e.getD 2 0, e.getD 3 0, e.getD 4 0, e.getD 5 0, e.getD 6 0, e.getD 7 0, e.getD 8 0]

/-- NUM_DECODE (41_numcodec R170): LEN_RANGE is checked first. An operand byte never written since reset makes the
result UNSPECIFIED: the exact value is then a free one (log 6). -/
def execNumDecode (s : State) : Host.Outcome State Fault Refusal :=
  if s.lenOutOfRange then .next (s.raise .lenRange)
  else
    match s.operandBytes with
    | some b => .next (s.finishDecode (scriptDecode b))
    | none => .next (s.drawInt.2.finishDecode s.drawInt.1)

/-- NUM_ENCODE (41_numcodec R171). -/
def execNumEncode (s : State) : Host.Outcome State Fault Refusal :=
  let e := scriptEncode s.operandNum
  .next { s with numlen := BitVec.ofNat 4 e.length, numout := encodeOut e }.complete

end Sys2Proof.Machine
end

