-- ==== Sys2Proof/Machine/Sha256.lean ====
section
/-! DEFINITION. SHA-256 (40_sha256 R100 to R133) and the meanings of SHA_INIT, SHA_COMPRESS and SHA_HASH (R140 to
R142). -/

namespace Sys2Proof.Machine

/-- `ROTR(x, n) = (x >> n) | (x << (32 − n))` for 0 < n < 32 (00_scope R8). -/
def rotr (x : Word) (n : Nat) : Word := (x >>> n) ||| (x <<< (32 - n))

/-- `SHR(x, n) = x >> n`, zero fill (00_scope R8). -/
def shr (x : Word) (n : Nat) : Word := x >>> n

/-- `Ch` (40_sha256 R102). -/
def ch (x y z : Word) : Word := (x &&& y) ^^^ (~~~x &&& z)

/-- `Maj` (40_sha256 R102). -/
def maj (x y z : Word) : Word := (x &&& y) ^^^ (x &&& z) ^^^ (y &&& z)

/-- `Σ0` (40_sha256 R102). -/
def bigSigma0 (x : Word) : Word := rotr x 2 ^^^ rotr x 13 ^^^ rotr x 22

/-- `Σ1` (40_sha256 R102). -/
def bigSigma1 (x : Word) : Word := rotr x 6 ^^^ rotr x 11 ^^^ rotr x 25

/-- `σ0` (40_sha256 R102). -/
def smallSigma0 (x : Word) : Word := rotr x 7 ^^^ rotr x 18 ^^^ shr x 3

/-- `σ1` (40_sha256 R102). -/
def smallSigma1 (x : Word) : Word := rotr x 17 ^^^ rotr x 19 ^^^ shr x 10

/-- The round constants of rows r0 to r3 (40_sha256 R103). -/
def roundConstantsLow : List Word :=
  [0x428a2f98, 0x71374491, 0xb5c0fbcf, 0xe9b5dba5, 0x3956c25b, 0x59f111f1, 0x923f82a4, 0xab1c5ed5] ++
  [0xd807aa98, 0x12835b01, 0x243185be, 0x550c7dc3, 0x72be5d74, 0x80deb1fe, 0x9bdc06a7, 0xc19bf174] ++
  [0xe49b69c1, 0xefbe4786, 0x0fc19dc6, 0x240ca1cc, 0x2de92c6f, 0x4a7484aa, 0x5cb0a9dc, 0x76f988da] ++
  [0x983e5152, 0xa831c66d, 0xb00327c8, 0xbf597fc7, 0xc6e00bf3, 0xd5a79147, 0x06ca6351, 0x14292967]

/-- The round constants of rows r4 to r7 (40_sha256 R103). -/
def roundConstantsHigh : List Word :=
  [0x27b70a85, 0x2e1b2138, 0x4d2c6dfc, 0x53380d13, 0x650a7354, 0x766a0abb, 0x81c2c92e, 0x92722c85] ++
  [0xa2bfe8a1, 0xa81a664b, 0xc24b8b70, 0xc76c51a3, 0xd192e819, 0xd6990624, 0xf40e3585, 0x106aa070] ++
  [0x19a4c116, 0x1e376c08, 0x2748774c, 0x34b0bcb5, 0x391c0cb3, 0x4ed8aa4a, 0x5b9cca4f, 0x682e6ff3] ++
  [0x748f82ee, 0x78a5636f, 0x84c87814, 0x8cc70208, 0x90befffa, 0xa4506ceb, 0xbef9a3f7, 0xc67178f2]

/-- `K[0..63]` (40_sha256 R103). -/
def roundConstants : List Word := roundConstantsLow ++ roundConstantsHigh

/-- `IV[0..7]` (40_sha256 R104). -/
def initialHash : Vector Word 8 :=
  #v[0x6a09e667, 0xbb67ae85, 0x3c6ef372, 0xa54ff53a, 0x510e527f, 0x9b05688c, 0x1f83d9ab, 0x5be0cd19]

/-- `z = (55 − L) mod 64`, the number of zero bytes of the padding (40_sha256 R110). -/
def padZeros (len : Nat) : Nat := ((55 - (len : Int)) % 64).toNat

/-- `pad(m) = m ‖ 0x80 ‖ bytes(z, 0x00) ‖ be64(8·L)` (40_sha256 R110). -/
def pad (m : List Byte) : List Byte :=
  m ++ [0x80#8] ++ List.replicate (padZeros m.length) 0x00#8 ++ be64 (8 * m.length)

/-- `N(L) = ⌊(L + 8) / 64⌋ + 1`, the number of blocks (40_sha256 R110). -/
def blockCount (len : Nat) : Nat := (len + 8) / 64 + 1

/-- `M_i[j]`: the big-endian word of bytes `64i+4j … 64i+4j+3` of the padded message (40_sha256 R111). -/
def blockWord (p : List Byte) (i j : Nat) : Word :=
  beWord (p.getD (64 * i + 4 * j) 0) (p.getD (64 * i + 4 * j + 1) 0) (p.getD (64 * i + 4 * j + 2) 0)
    (p.getD (64 * i + 4 * j + 3) 0)

/-- Block `i` of a padded message, as sixteen words (40_sha256 R111). -/
def block (p : List Byte) (i : Nat) : Vector Word 16 :=
  #v[blockWord p i 0, blockWord p i 1, blockWord p i 2, blockWord p i 3, blockWord p i 4, blockWord p i 5,
     blockWord p i 6, blockWord p i 7, blockWord p i 8, blockWord p i 9, blockWord p i 10, blockWord p i 11,
     blockWord p i 12, blockWord p i 13, blockWord p i 14, blockWord p i 15]

/-- Appends the next word `W[t]`, t = the number of words so far:
`W[t] = σ1(W[t−2]) + W[t−7] + σ0(W[t−15]) + W[t−16]` (40_sha256 R112). -/
def scheduleNext (w : List Word) : List Word :=
  w ++ [smallSigma1 (w.getD (w.length - 2) 0) + w.getD (w.length - 7) 0 + smallSigma0 (w.getD (w.length - 15) 0)
    + w.getD (w.length - 16) 0]

/-- Appends `n` more words to the schedule. -/
def scheduleMore : Nat → List Word → List Word
  | 0, w => w
  | n + 1, w => scheduleMore n (scheduleNext w)

/-- `W[0..63]`: the block's sixteen words and 48 more (40_sha256 R112). -/
def schedule (m : Vector Word 16) : List Word := scheduleMore 48 m.toList

/-- The eight round variables (00_scope R11, 40_sha256 R113). -/
structure RoundVars where
  a : Word
  b : Word
  c : Word
  d : Word
  e : Word
  f : Word
  g : Word
  h : Word
deriving DecidableEq, Repr

/-- Round t, with `kw = (K[t], W[t])`: all eight variables are replaced at once (40_sha256 R113). -/
def roundStep (v : RoundVars) (kw : Word × Word) : RoundVars :=
  let t1 := v.h + bigSigma1 v.e + ch v.e v.f v.g + kw.1 + kw.2
  let t2 := bigSigma0 v.a + maj v.a v.b v.c
  ⟨t1 + t2, v.a, v.b, v.c, v.d + t1, v.e, v.f, v.g⟩

/-- The round variables before round 0: `(a, …, h) <- (Hin[0], …, Hin[7])` (40_sha256 R114). -/
def roundStart (hin : Vector Word 8) : RoundVars :=
  ⟨hin[0], hin[1], hin[2], hin[3], hin[4], hin[5], hin[6], hin[7]⟩

/-- The 64 rounds, t = 0 to 63 in order (40_sha256 R114, R120). -/
def rounds (v : RoundVars) (m : Vector Word 16) : RoundVars :=
  (List.zip roundConstants (schedule m)).foldl roundStep v

/-- `Compress(Hin, M)` (40_sha256 R114). -/
def compress (hin : Vector Word 8) (m : Vector Word 16) : Vector Word 8 :=
  let v := rounds (roundStart hin) m
  #v[hin[0] + v.a, hin[1] + v.b, hin[2] + v.c, hin[3] + v.d, hin[4] + v.e, hin[5] + v.f, hin[6] + v.g, hin[7] + v.h]

/-- The chain of `Compress` over the first `n` blocks of a padded message, from `IV` (40_sha256 R130). -/
def hashChain (p : List Byte) : Nat → Vector Word 8
  | 0 => initialHash
  | n + 1 => compress (hashChain p n) (block p n)

/-- `SHA256state(m)` (40_sha256 R130). -/
def sha256State (m : List Byte) : Vector Word 8 := hashChain (pad m) (blockCount m.length)

/-- The digest `be32(S[0]) ‖ … ‖ be32(S[7])` of a hash state (10_state R23, 40_sha256 R133). -/
def digest (h : Vector Word 8) : List Byte := h.toList.flatMap be32

/-- SHA_INIT: `H[i] <- IV[i]` (40_sha256 R140). -/
def execShaInit (s : State) : Host.Outcome State Fault Refusal :=
  .next { s with h := initialHash }.complete

/-- SHA_COMPRESS: `H <- Compress(H, BLK)` (40_sha256 R141). -/
def execShaCompress (s : State) : Host.Outcome State Fault Refusal :=
  .next { s with h := compress s.h s.blk }.complete

/-- SHA_HASH (40_sha256 R142). An operand byte never written since reset makes the result UNSPECIFIED (log 6). -/
def execShaHash (s : State) : Host.Outcome State Fault Refusal :=
  if s.lenOutOfRange then .next (s.raise .lenRange)
  else
    match s.operandBytes with
    | some m => .next { s with h := sha256State m }.complete
    | none => .next { s.drawHash.2 with h := s.drawHash.1 }.complete

end Sys2Proof.Machine
end

