-- ==== Sys2Proof/Machine/Dispatch.lean ====
section
/-! DEFINITION. The dispatch from a command to its meaning. -/

namespace Sys2Proof.Machine

/-- The command performed by the core's completion step (60_exceptions R206). -/
def exec (i : Instr) (s : State) : Host.Outcome State Fault Refusal :=
  match i with
  | .shaInit => Sys2Proof.Machine.execShaInit s
  | .shaCompress => Sys2Proof.Machine.execShaCompress s
  | .shaHash => Sys2Proof.Machine.execShaHash s
  | .numDecode => Sys2Proof.Machine.execNumDecode s
  | .numEncode => Sys2Proof.Machine.execNumEncode s

end Sys2Proof.Machine
end

