-- ==== Sys2Proof/Machine/Agents.lean ====
section
/-! DEFINITION. The steps of the agents: the core's completion (60_exceptions R206), the host's accesses (10_state R20,
30_encoding R90, R91, R95) and the reset input (70_reset_and_hazards R230). -/

namespace Sys2Proof.Machine

/-- The core's step, *completion*: enabled exactly when STATUS.BUSY = 1 (10_state R20, 60_exceptions R206). When it is
not enabled its turn passes. -/
def coreStep (s : State) : Host.Outcome State Fault Refusal :=
  if s.status.busy then
    match s.pending with
    | none => .fault .noValidPending
    | some c =>
      match decode c with
      | .error _ => .fault .noValidPending
      | .ok i => exec i s
  else .next s

/-- The word a request's response carries, 0 if it carries none. -/
def State.respData (s : State) : Word :=
  match s.resp with
  | some ⟨some w, _⟩ => w
  | some ⟨none, _⟩ | none => 0#32

/-- Binds a name of the host program to a word (30_encoding R90). -/
def State.bind (s : State) (name : Option String) (w : Word) : State :=
  match name with
  | some n => { s with names := (n, w) :: s.names }
  | none => s

/-- Whether an assertion of a host program holds (30_encoding R91; log 16). -/
def State.satisfies (s : State) : Expectation → Bool
  | .value n v => s.names.lookup n == some v
  | .reg r v => s.readReg r == v

/-- A bus access of the host: the request at the port, unless reset is asserted (70_reset_and_hazards R230, 93 U9;
log 12), then the read word bound to its name. -/
def hostAccess (s : State) (r : BusRequest) (dst : Option String) : Host.Outcome State Fault Refusal :=
  if s.rst then .fault .requestDuringReset
  else .next ((s.request r).bind dst (s.request r).respData)

/-- The STATUS read that POLL repeats (30_encoding R91). -/
def statusRead : BusRequest := ⟨BitVec.ofNat 13 Reg.status.offset, .word, .read⟩

/-- The host's step: it runs the next line of its program (10_state R20, 30_encoding R95). A POLL whose read shows
`s[0] = 1` is run again (R91). When no line is left its turn passes. -/
def hostStep (s : State) : Host.Outcome State Fault Refusal :=
  match s.program with
  | [] => .next s
  | .bus r dst :: rest => hostAccess { s with program := rest } r dst
  | .poll dst :: rest =>
    let again := ((s.request statusRead).respData).getLsbD 0
    hostAccess { s with program := if again then .poll dst :: rest else rest } statusRead (some dst)
  | .expect e :: rest => .next { s with program := rest, checks := s.satisfies e :: s.checks }

/-- Reset is asserted: a pending command is abandoned and the registers take their reset values
(70_reset_and_hazards R230; log 11). -/
def assertResetStep (s : State) : State := { s.resetRegisters with rst := true }

/-- Reset is released: "every register holds its reset value" (70_reset_and_hazards R230). With reset not asserted there
is nothing to release. -/
def releaseResetStep (s : State) : State := if s.rst then { s.resetRegisters with rst := false } else s

/-- One move of the agent whose turn it is. -/
def agentStep (t : Turn) (s : State) : Host.Outcome State Fault Refusal :=
  match t with
  | .host => hostStep s
  | .core => coreStep s
  | .assertReset => .next (assertResetStep s)
  | .releaseReset => .next (releaseResetStep s)

/-- Whose turn it is: the head of `turns`; when that is empty, the core if a command is pending, else the host
(60_exceptions R206: the completion step "is always eventually taken"; log 2). -/
def State.nextTurn (s : State) : Turn :=
  match s.turns with
  | t :: _ => t
  | [] => if s.status.busy then .core else .host

/-- The state with the turn taken. -/
def State.takeTurn (s : State) : State := { s with turns := s.turns.tail }

end Sys2Proof.Machine
end

