-- ==== Sys2Proof/Machine/Step.lean ====
section
/-! DEFINITION. One step of the machine, and the state whose next step runs a given command. -/

namespace Sys2Proof.Machine

/-- One step: one move of one agent (10_state R20). -/
def step (s : State) : Host.Outcome State Fault Refusal := agentStep s.nextTurn s.takeTurn

/-- `s` with a command launched (60_exceptions R202: PENDING holds its word, BUSY = 1) and the core's turn next, so that
the very next step is its completion (log 1). -/
def State.withFetchWord (s : State) (nbits w : Nat) : State :=
  { s with
    status := { s.status with busy := true },
    pending := some (BitVec.ofNat 32 (w % 2 ^ nbits)),
    turns := .core :: s.turns }

end Sys2Proof.Machine
end

