-- ==== Sys2Proof/Safety.lean ====
section
/-! DEFINITION. What a good state is: the invariant every step keeps, and when a step may not stop. -/

namespace Sys2Proof.Machine

/-- Every register holds its reset value (10_state R37); PARAM is a constant, DBUF has no written byte. -/
structure State.AtResetValues (s : State) : Prop where
  h : ∀ i : Fin 8, s.h[i] = 0
  blk : ∀ j : Fin 16, s.blk[j] = 0
  dbuf : ∀ k, Memory.read s.dbuf k = none
  len : s.len = 0
  num : s.num = 0
  numout : ∀ k : Fin 9, s.numout[k] = 0
  numlen : s.numlen = 0
  busy : s.status.busy = false
  err : s.status.err = false
  drop : s.status.drop = false
  code : s.status.code = .none
  pending : s.pending = none

/-- The invariant of the machine. -/
structure State.Inv (s : State) : Prop where
  /-- DBUF is in its canonical form. -/
  dbufCanonical : Memory.wf s.dbuf = true
  /-- Every written byte is inside the buffer (10_state R25). -/
  dbufInside : ∀ k b, Memory.read s.dbuf k = some b → k < s.bufBytes
  /-- `BUF_BYTES` is legal (00_scope R5). -/
  bufBytesValid : Config.ValidBufBytes s.bufBytes
  /-- While BUSY = 1, PENDING holds the word of a command (10_state R30, 60_exceptions R202). -/
  pendingValid : s.status.busy = true → ∃ i, s.pending = some (encode i)
  /-- While BUSY = 0, PENDING is none (10_state R37, 60_exceptions R203, R206). -/
  pendingNone : s.status.busy = false → s.pending = none
  /-- ERR = 1 exactly when ERRCODE is not 0 (10_state R29). -/
  errHasCode : s.status.err = true ↔ s.status.code ≠ .none
  /-- A launch cleared ERR (60_exceptions R202). -/
  noErrWhileBusy : s.status.busy = true → s.status.err = false
  /-- NUMLEN is 0 to 9 (10_state R28). -/
  numlenBound : s.numlen.toNat ≤ 9
  /-- `NUMOUT[n..8]` hold 0 (10_state R28). -/
  numoutTail : ∀ k : Fin 9, s.numlen.toNat ≤ k.val → s.numout[k] = 0
  /-- While reset is asserted the registers are at their reset values (70_reset_and_hazards R230). -/
  resetHolds : s.rst = true → s.AtResetValues

/-- A step that does not stop. -/
def State.Runs (s : State) : Prop := ∃ t, step s = .next t

/-- Whether the next move is a bus access of the host (30_encoding R90, R91). -/
def State.accessNext (s : State) : Bool :=
  match s.nextTurn, s.program with
  | .host, .bus _ _ :: _ | .host, .poll _ :: _ => true
  | .host, .expect _ :: _ | .host, [] | .core, _ | .assertReset, _ | .releaseReset, _ => false

/-- A safe state: the invariant holds, and the platform makes no request while reset is asserted
(70_reset_and_hazards R230). -/
structure State.Safe (s : State) : Prop where
  inv : s.Inv
  platform : s.rst = true → s.accessNext = false

end Sys2Proof.Machine
end

