-- ==== Sys2Proof/WellFormed.lean ====
section
/-! DEFINITION. What is well formed: every command (it has no operand, 30_encoding R81), a line of a host program
(30_encoding R90, R91), and a host program (R95). -/

namespace Sys2Proof

/-- A command has no field that could hold an illegal value (30_encoding R81). -/
def Instr.wf : Instr → Bool
  | .shaInit | .shaCompress | .shaHash | .numDecode | .numEncode => true

namespace Machine

/-- A register a program may name: DBUF has the words of offsets 0x1000 to 0x1FFC (10_state R22, 30_encoding R90). -/
def Reg.wf : Reg → Bool
  | .dbuf i => i < 1024
  | .cmd | .status | .len | .numlen | .numLo | .numHi | .param | .h _ | .blk _ | .numout0 | .numout1 | .numout2 => true

/-- A line's operands: `WRMSG` fits the largest buffer, `WRBLK` has 64 bytes, `WRNUM` is an `s64` (30_encoding R91,
00_scope R6). A raw request may be illegal at the port: it gets an error response (20_memory R52). -/
def AsmLine.wf : AsmLine → Bool
  | .wr r _ => r.wf
  | .rd r _ => r.wf
  | .cmd i => i.wf
  | .poll => true
  | .wrmsg m => m.length ≤ 4096
  | .wrblk b => b.length == 64
  | .wrnum v => decide (-2 ^ 63 ≤ v ∧ v ≤ 2 ^ 63 - 1)
  | .expect (.value _ _) => true
  | .expect (.reg r _) => r.wf
  | .request _ => true

/-- A line that counts as a `CMD` in R95: every word write at the offset of CMD, also a literal `WR CMD, w`, and also with
an illegal `w` that launches nothing (95_test_vectors P3). R95 names the pseudo-instruction only: the model's choice
(log 22). -/
def HostLine.writesCmd : HostLine → Bool
  | .bus ⟨off, .word, .write _⟩ _ => off.toNat == Reg.cmd.offset
  | .bus _ _ | .poll _ | .expect _ => false

/-- A line that makes no access other than a STATUS read. -/
def HostLine.onlyReadsStatus : HostLine → Bool
  | .bus ⟨off, .word, .read⟩ _ => off.toNat == Reg.status.offset
  | .poll _ | .expect _ => true
  | .bus _ _ => false

/-- "A well-formed program issues `POLL` after every `CMD` before its next access other than a STATUS read"
(30_encoding R95). `owed`: a CMD has been written and not polled since. A program that ends with a POLL owed is accepted,
there being no next access: R95 does not say, and it is the model's choice (log 22). -/
def pollsAfterCmd : Bool → List HostLine → Bool
  | _, [] => true
  | owed, l :: ls =>
    match l with
    | .poll _ => pollsAfterCmd false ls
    | .bus _ _ | .expect _ => (!owed || l.onlyReadsStatus) && pollsAfterCmd (owed || l.writesCmd) ls

/-- A well-formed host program (30_encoding R90, R91, R95). -/
def programWf (p : List AsmLine) : Bool := p.all AsmLine.wf && pollsAfterCmd false (assemble p)

end Machine
end Sys2Proof
end

