-- ==== Sys2Proof/Certificates/Slice0/Obligations.lean ====
section
/-! DEFINITION. The statements for the provers, and the vocabulary they are written in. No statement rests on a value of
a free constant, of `draws` or of `epoch`. -/

namespace Sys2Proof.Claims

open Sys2Proof Sys2Proof.Machine

/-- The byte-string operand of a command is `m`: LEN is its length and every byte of it has been written. -/
def OperandIs (s : State) (m : List Byte) : Prop :=
  m.length = s.len.toNat ∧ ∀ k (hk : k < m.length), Memory.read s.dbuf k = some m[k]

/-- Some byte of the operand `DBUF[0 .. LEN−1]` was never written since reset. -/
def OperandUnwritten (s : State) : Prop := ∃ k, k < s.len.toNat ∧ Memory.read s.dbuf k = none

/-- STATUS as `complete()` leaves it: BUSY, ERR and ERRCODE are 0, DROP stays (60_exceptions R206). -/
def doneStatus (t : Status) : Status := ⟨false, false, t.drop, .none⟩

/-- STATUS as `raise CmdError(code)` leaves it (60_exceptions R203). -/
def errorStatus (t : Status) (code : ErrCode) : Status := ⟨false, true, t.drop, code⟩

/-- `W[0..63]` of a block (40_sha256 R112), with the two functions of R102 written out. -/
def IsSchedule (m : Vector Word 16) (w : Nat → Word) : Prop :=
  (∀ t : Fin 16, w t = m[t]) ∧
  ∀ t, 16 ≤ t → t < 64 → w t =
    ((w (t - 2)).rotateRight 17 ^^^ (w (t - 2)).rotateRight 19 ^^^ (w (t - 2) >>> 10)) + w (t - 7)
      + ((w (t - 15)).rotateRight 7 ^^^ (w (t - 15)).rotateRight 18 ^^^ (w (t - 15) >>> 3)) + w (t - 16)

/-- The round variables before round t, for t = 0 to 64 (40_sha256 R113), with the functions of R102 written out. -/
def IsRounds (k w : Nat → Word) (v : Nat → RoundVars) : Prop :=
  ∀ t, t < 64 → ∀ a b c d e f g h t1 t2 : Word, v t = ⟨a, b, c, d, e, f, g, h⟩ →
    t1 = h + (e.rotateRight 6 ^^^ e.rotateRight 11 ^^^ e.rotateRight 25) + ((e &&& f) ^^^ (~~~e &&& g)) + k t + w t →
    t2 = (a.rotateRight 2 ^^^ a.rotateRight 13 ^^^ a.rotateRight 22) + ((a &&& b) ^^^ (a &&& c) ^^^ (b &&& c)) →
    v (t + 1) = ⟨t1 + t2, a, b, c, d + t1, e, f, g⟩

/-- The first 64 primes (40_sha256 R103, R104). -/
def firstPrimes : List Nat :=
  [2, 3, 5, 7, 11, 13, 17, 19, 23, 29, 31, 37, 41, 43, 47, 53] ++
  [59, 61, 67, 71, 73, 79, 83, 89, 97, 101, 103, 107, 109, 113, 127, 131] ++
  [137, 139, 149, 151, 157, 163, 167, 173, 179, 181, 191, 193, 197, 199, 211, 223] ++
  [227, 229, 233, 239, 241, 251, 257, 263, 269, 271, 277, 281, 283, 293, 307, 311]

/-- A block's word is the big-endian number of its four bytes (40_sha256 R111). -/
def IsBlock (p : List Byte) (i : Nat) (b : Vector Word 16) : Prop :=
  ∀ j : Fin 16, b[j].toNat = (p.getD (64 * i + 4 * j) 0).toNat * 2 ^ 24 + (p.getD (64 * i + 4 * j + 1) 0).toNat * 2 ^ 16
    + (p.getD (64 * i + 4 * j + 2) 0).toNat * 2 ^ 8 + (p.getD (64 * i + 4 * j + 3) 0).toNat

/-- A command issued and completed: the host's CMD write, then the core's step. -/
def command (i : Instr) (s : State) : Host.Outcome State Fault Refusal := coreStep (s.busWrite 0#13 (encode i))

/-- The sixteen writes that put a block into BLK. -/
def writeBlk (b : Vector Word 16) (s : State) : State :=
  (List.finRange 16).foldl (fun s j => s.busWrite (BitVec.ofNat 13 (0x040 + 4 * j.val)) b[j]) s

/-- A long message hashed block by block: SHA_INIT once, then each block of `pad(m)` is written to BLK and compressed
(40_sha256 R131). -/
def hashByBlocks (m : List Byte) : Nat → State → Host.Outcome State Fault Refusal
  | 0, s => command .shaInit s
  | n + 1, s =>
    match hashByBlocks m n s with
    | .next t => command .shaCompress (writeBlk (block (pad m) n) t)
    | .fault f => .fault f
    | .refused r => .refused r

end Sys2Proof.Claims

open Sys2Proof Sys2Proof.Machine Sys2Proof.Claims

/-! ### Encoding -/

/-- A few words of the opcode map and what they stand for (30_encoding R82, section 2). -/
def Obligations.CommandWordsDecodeAsListed : Prop :=
  decode 0x00000001#32 = .ok .shaInit ∧ decode 0x00000002#32 = .ok .shaCompress ∧
  decode 0x00000003#32 = .ok .shaHash ∧ decode 0x00000010#32 = .ok .numDecode ∧
  decode 0x00000011#32 = .ok .numEncode

/-- Decoding and encoding agree on all 2^32 words (30_encoding R80, R82, R83): a word decodes to a command exactly when
it is that command's word. -/
def Obligations.DecodeInvertsEncode : Prop :=
  ∀ (c : Word) (i : Instr), decode c = .ok i ↔ c = encode i

/-- R84: every word but the five is illegal, the zero word among them; a launch attempt with it reports ILLEGAL_CMD and
starts nothing. -/
def Obligations.EveryOtherWordIsIllegal : Prop :=
  ∀ (c : Word), c.toNat ∉ [0x01, 0x02, 0x03, 0x10, 0x11] →
    (∃ e, decode c = .error e) ∧
    ∀ s : State, s.status.busy = false →
      s.busWrite 0#13 c = { s with status := ⟨s.status.busy, true, false, .illegalCmd⟩ }

/-- The register map (10_state R22): at an aligned offset stands the register whose offset that is, DBUF words inside
`BUF_BYTES`. -/
def Obligations.RegisterMapMatchesOffsets : Prop :=
  ∀ (n : Nat) (off : Offset) (r : Reg), off.toNat % 4 = 0 →
    (regAt n off = some r ↔ off.toNat = r.offset ∧ ∀ i, r = .dbuf i → 4 * i < n)

/-! ### The port -/

/-- R52: the legal requests; any other gets an error response with read data 0 and no other effect (`resp` is where the
model keeps the response, log 10). -/
def Obligations.IllegalRequestOnlyGetsErrorResponse : Prop :=
  ∀ (s : State) (r : BusRequest),
    (r.legal = true ↔ r.size = .word ∧ r.off.toNat % 4 = 0) ∧
    (r.legal = false →
      (r.access = .read → s.request r = { s with resp := some ⟨some 0#32, true⟩ }) ∧
      (∀ v, r.access = .write v → s.request r = { s with resp := some ⟨none, true⟩ }))

/-- The reads of section 3 of 20_memory while BUSY = 0, offset by offset (R53), and that they change nothing (R60). -/
def Obligations.IdleReadReturnsRegister : Prop :=
  ∀ (s : State) (off : Offset), s.status.busy = false →
    (s.busRead off).2 = s ∧
    (off.toNat = 0x000 → (s.busRead off).1 = 0) ∧
    (off.toNat = 0x008 → (s.busRead off).1.toNat = s.len.toNat) ∧
    (off.toNat = 0x00C → (s.busRead off).1.toNat = s.numlen.toNat) ∧
    (off.toNat = 0x010 → (s.busRead off).1.toNat = s.num.toNat % 2 ^ 32) ∧
    (off.toNat = 0x014 → (s.busRead off).1.toNat = s.num.toNat / 2 ^ 32) ∧
    (∀ i : Fin 8, off.toNat = 0x020 + 4 * i → (s.busRead off).1 = s.h[i]) ∧
    (∀ j : Fin 16, off.toNat = 0x040 + 4 * j → (s.busRead off).1 = s.blk[j])

/-- STATUS as a word (10_state R29): BUSY is bit 0, ERR bit 1, DROP bit 2, ERRCODE bits 7:4, all else 0, at every
moment. -/
def Obligations.StatusReadShowsItsFields : Prop :=
  ∀ s : State, (s.busRead 0x004#13).1.toNat =
    s.status.busy.toNat + 2 * s.status.err.toNat + 4 * s.status.drop.toNat +
      16 * (match s.status.code with | .none => 0 | .illegalCmd => 1 | .lenRange => 2 | .numRange => 3)

/-- R33: PARAM reads `BUF_BYTES` at every moment, a write of it is ignored, and no step changes it. -/
def Obligations.ParamIsConstantBufBytes : Prop :=
  (∀ s : State, (s.busRead 0x018#13).1.toNat = s.bufBytes) ∧
  (∀ (s : State) (v : Word), s.status.busy = false → s.busWrite 0x018#13 v = s) ∧
  (∀ s t : State, step s = .next t → t.bufBytes = s.bufBytes)

/-- What a read gives while BUSY = 1 (10_state R40). That an undefined read is a fresh free word, counted by `draws`, is
the model's form (log 7); nothing else changes. With BUSY = 0, what a DBUF byte never written since reset reads as is the
model's choice (log 5). -/
def Obligations.BusyReadIsUnspecifiedBesidesStatus : Prop :=
  ∀ (s : State) (off : Offset),
    (s.status.busy = true → off.toNat % 4 = 0 →
      (off.toNat = 0x004 → s.busRead off = (s.status.byte.setWidth 32, s)) ∧
      (off.toNat = 0x018 → s.busRead off = (s.param.setWidth 32, s)) ∧
      (off.toNat = 0x000 → s.busRead off = (0, s)) ∧
      (regAt s.bufBytes off = none → s.busRead off = (0, s)) ∧
      (∀ r, regAt s.bufBytes off = some r → r ≠ .cmd → r ≠ .status → r ≠ .param →
        s.busRead off = (Config.freeWord s.draws, { s with draws := s.draws + 1 }))) ∧
    (s.status.busy = false → ∀ r, regAt s.bufBytes off = some r → s.busRead off = (s.readReg r, s))

/-- R56: reserved space reads 0 and a write there has no effect; reserved bits read 0 and a write of them is ignored. -/
def Obligations.ReservedSpaceReadsZeroIgnoresWrites : Prop :=
  ∀ (s : State) (off : Offset) (v : Word), off.toNat % 4 = 0 →
    ((off.toNat = 0x01C ∨ (0x08C ≤ off.toNat ∧ off.toNat ≤ 0x0FFC) ∨ 0x1000 + s.bufBytes ≤ off.toNat) →
      s.busRead off = (0, s) ∧ (s.status.busy = false → s.busWrite off v = s)) ∧
    (s.status.busy = false →
      (off.toNat = 0x008 → (s.busRead off).1.toNat < 2 ^ 16 ∧
        s.busWrite off v = s.busWrite off (v &&& 0x0000FFFF#32)) ∧
      (off.toNat = 0x00C → (s.busRead off).1.toNat < 2 ^ 4 ∧ s.busWrite off v = s) ∧
      (off.toNat = 0x004 → (s.busRead off).1 &&& 0xFFFFFF08#32 = 0 ∧ s.busWrite off v = s) ∧
      (off.toNat = 0x018 → (s.busRead off).1.toNat < 2 ^ 16 ∧ s.busWrite off v = s) ∧
      (off.toNat = 0x088 → (s.busRead off).1.toNat < 2 ^ 8 ∧ s.busWrite off v = s))

/-- A register the host may write reads back what was written, LEN its low half (20_memory R53, R54). -/
def Obligations.WrittenRegisterReadsBack : Prop :=
  ∀ (s : State) (off : Offset) (v : Word), s.status.busy = false → off.toNat % 4 = 0 →
    (off.toNat = 0x008 → ((s.busWrite off v).busRead off).1.toNat = v.toNat % 2 ^ 16) ∧
    (off.toNat = 0x010 ∨ off.toNat = 0x014 ∨ (0x020 ≤ off.toNat ∧ off.toNat < 0x080) ∨
      (0x1000 ≤ off.toNat ∧ off.toNat < 0x1000 + s.bufBytes) → ((s.busWrite off v).busRead off).1 = v)

/-- A write of one word of the window leaves every other word of it as it was, STATUS among them, and starts nothing
(20_memory R54; a write of CMD is a launch and is stated elsewhere). That a DBUF word with bytes never written since
reset reads the same before and after is the model's choice (log 5). -/
def Obligations.WriteLeavesOtherWordsAlone : Prop :=
  ∀ (s : State) (off off' : Offset) (v : Word), s.status.busy = false → off.toNat % 4 = 0 → off'.toNat % 4 = 0 →
    off.toNat ≠ 0x000 → off ≠ off' →
    ((s.busWrite off v).busRead off').1 = (s.busRead off').1 ∧
    (s.busWrite off v).pending = s.pending ∧ (s.busWrite off v).status = s.status

/-- DBUF packs little-endian (20_memory R55, R57): byte k is bits [8(k mod 4)+7 : 8(k mod 4)] of the word at
0x1000 + 4⌊k/4⌋, in a write (which marks exactly that word's bytes written) and in a read. -/
def Obligations.BufferWordPacksLittleEndian : Prop :=
  ∀ (s : State) (k : Nat) (v : Word), s.status.busy = false → Config.ValidBufBytes s.bufBytes → k < s.bufBytes →
    (∃ b, Memory.read (s.busWrite (BitVec.ofNat 13 (0x1000 + 4 * (k / 4))) v).dbuf k = some b ∧
      b.toNat = v.toNat / 2 ^ (8 * (k % 4)) % 256) ∧
    (∀ k', k' / 4 ≠ k / 4 →
      Memory.read (s.busWrite (BitVec.ofNat 13 (0x1000 + 4 * (k / 4))) v).dbuf k' = Memory.read s.dbuf k') ∧
    (∀ b, Memory.read s.dbuf k = some b →
      (s.busRead (BitVec.ofNat 13 (0x1000 + 4 * (k / 4)))).1.toNat / 2 ^ (8 * (k % 4)) % 256 = b.toNat)

/-- NUMOUT packs little-endian into NUMOUT0 to NUMOUT2 (10_state R28). -/
def Obligations.EncodeOutputPacksLittleEndian : Prop :=
  ∀ s : State, s.status.busy = false →
    (s.busRead 0x080#13).1.toNat = s.numout[0].toNat + s.numout[1].toNat * 2 ^ 8 + s.numout[2].toNat * 2 ^ 16
      + s.numout[3].toNat * 2 ^ 24 ∧
    (s.busRead 0x084#13).1.toNat = s.numout[4].toNat + s.numout[5].toNat * 2 ^ 8 + s.numout[6].toNat * 2 ^ 16
      + s.numout[7].toNat * 2 ^ 24 ∧
    (s.busRead 0x088#13).1.toNat = s.numout[8].toNat

/-- R232: every write while BUSY = 1 is dropped and sets DROP, which stays until the next CMD write while BUSY = 0 (or a
reset, R29): commands, reads and other writes keep it. -/
def Obligations.BusyWriteIsDropped : Prop :=
  (∀ (s : State) (off : Offset) (v : Word), s.status.busy = true →
    s.busWrite off v = { s with status := ⟨true, s.status.err, true, s.status.code⟩ }) ∧
  (∀ (i : Instr) (s t : State), exec i s = .next t → t.status.drop = s.status.drop) ∧
  (∀ (s : State) (off : Offset), (s.busRead off).2.status.drop = s.status.drop) ∧
  (∀ (s : State) (off : Offset) (v : Word), s.status.busy = false → off.toNat % 4 = 0 → off.toNat ≠ 0x000 →
    (s.busWrite off v).status.drop = s.status.drop) ∧
  (∀ (s : State) (v : Word), s.status.busy = false → (s.busWrite 0#13 v).status.drop = false)

/-- The window in the host's address map (20_memory R50, R61): `BASE` is aligned to 8192, and an address has an offset
exactly when it is `BASE` plus that offset. -/
def Obligations.WindowCoversBaseTo8191 : Prop :=
  Config.base % 8192 = 0 ∧
  ∀ (addr : Nat) (off : Offset), windowOffset addr = some off ↔ addr = busAddress off

/-! ### Launch, completion and errors -/

/-- R202: a launch of each command, and of no command. -/
def Obligations.LaunchSetsBusyAndPending : Prop :=
  ∀ s : State, s.status.busy = false →
    (∀ i : Instr, s.busWrite 0#13 (encode i) =
      { s with status := ⟨true, false, false, .none⟩, pending := some (encode i) }) ∧
    (∀ c : Word, (∀ i, c ≠ encode i) → s.busWrite 0#13 c =
      { s with status := ⟨false, true, false, .illegalCmd⟩ })

/-- When it is the core's turn and PENDING decodes to a command, the step is that command on the state with the turn
taken (60_exceptions R206); taking a turn changes nothing else. -/
def Obligations.CoreStepRunsThePendingCommand : Prop :=
  ∀ (s : State) (c : Word) (i : Instr), s.nextTurn = .core → s.status.busy = true → s.pending = some c →
    decode c = .ok i → step s = exec i { s with turns := s.turns.tail }

/-- A fetched word's command is what the next step runs: the form the host uses to run one command, which is the model's
choice (log 1). -/
def Obligations.FetchedWordRunsNext : Prop :=
  ∀ (s : State) (w : Nat) (i : Instr), decodeTableWord 32 w = some i →
    ∃ u, step (s.withFetchWord 32 w) = exec i u ∧ u.status.busy = true ∧ u.h = s.h ∧ u.blk = s.blk ∧ u.dbuf = s.dbuf ∧
      u.len = s.len ∧ u.num = s.num ∧ u.param = s.param ∧ u.turns = s.turns

/-- The completion step is enabled exactly when BUSY = 1 (60_exceptions R206): with BUSY = 0 the core changes nothing.
That its turn then passes is the model's scheduling (log 2). -/
def Obligations.IdleCoreDoesNothing : Prop :=
  ∀ s : State, s.nextTurn = .core → s.status.busy = false → step s = .next { s with turns := s.turns.tail }

/-- Every command, in every state, answers a next state with BUSY = 0 and PENDING none (60_exceptions R203, R206,
40_sha256 R150). That SHA_HASH and NUM_DECODE complete on an operand with a byte never written since reset is the
model's choice (log 6). -/
def Obligations.EveryCommandEndsIdle : Prop :=
  ∀ (i : Instr) (s : State), ∃ t, exec i s = .next t ∧ t.status.busy = false ∧ t.pending = none

/-- R204: which command raises which error. -/
def Obligations.ErrorsOfEachCommand : Prop :=
  ∀ (i : Instr) (s t : State), exec i s = .next t →
    (i = .shaInit ∨ i = .shaCompress ∨ i = .numEncode → t.status.err = false ∧ t.status.code = .none) ∧
    (i = .shaHash → t.status.code = .none ∨ t.status.code = .lenRange) ∧
    (i = .numDecode → t.status.code = .none ∨ t.status.code = .lenRange ∨ t.status.code = .numRange) ∧
    (t.status.err = true ↔ t.status.code ≠ .none)

/-- LEN_RANGE is checked before the value is decoded, so it is what a NUM_DECODE with LEN > `BUF_BYTES` reports, and a
SHA_HASH (60_exceptions R205). -/
def Obligations.LenRangeComesFirst : Prop :=
  ∀ s : State, s.bufBytes < s.len.toNat →
    exec .numDecode s = .next { s with status := errorStatus s.status .lenRange, pending := none } ∧
    exec .shaHash s = .next { s with status := errorStatus s.status .lenRange, pending := none }

/-- R207, R203: after an error the state equals the state at launch except for STATUS (and PENDING, which is none). -/
def Obligations.FailedCommandChangesOnlyStatus : Prop :=
  ∀ (i : Instr) (s t : State), exec i s = .next t → t.status.err = true →
    t = { s with status := errorStatus s.status t.status.code, pending := none, draws := t.draws }

/-- What no command writes (20_memory R69): DBUF byte by byte, LEN, BLK, PARAM; the reset input, the port and the host
agent are not its business either. That a DBUF byte never written since reset reads as before (the clause on `dbufByte`)
is the model's choice (log 5). -/
def Obligations.CommandsLeaveOperandsAlone : Prop :=
  ∀ (i : Instr) (s t : State), exec i s = .next t →
    (∀ k, Memory.read t.dbuf k = Memory.read s.dbuf k ∧ t.dbufByte k = s.dbufByte k) ∧
    t.len = s.len ∧ t.blk = s.blk ∧ t.param = s.param ∧ t.status.drop = s.status.drop ∧ t.rst = s.rst ∧
    t.resp = s.resp ∧ t.program = s.program ∧ t.names = s.names ∧ t.checks = s.checks ∧ t.turns = s.turns

/-- Each command writes only its own result register (30_encoding R82): H by the hash group, NUM by NUM_DECODE, NUMOUT
and NUMLEN by NUM_ENCODE. -/
def Obligations.CommandsWriteOnlyTheirResult : Prop :=
  ∀ (i : Instr) (s t : State), exec i s = .next t →
    (i = .numDecode ∨ i = .numEncode → t.h = s.h) ∧
    (i ≠ .numDecode → t.num = s.num) ∧
    (i ≠ .numEncode → t.numout = s.numout ∧ t.numlen = s.numlen)

/-- From launch to completion nothing the host does changes an operand, a result, BUSY or PENDING (20_memory R66,
70_reset_and_hazards R237). -/
def Obligations.OperandsAreFrozenWhileBusy : Prop :=
  ∀ s t : State, s.status.busy = true → s.nextTurn = .host → step s = .next t →
    t.h = s.h ∧ t.blk = s.blk ∧ (∀ k, Memory.read t.dbuf k = Memory.read s.dbuf k) ∧ t.len = s.len ∧ t.num = s.num ∧
    t.numout = s.numout ∧ t.numlen = s.numlen ∧ t.param = s.param ∧ t.status.busy = true ∧
    t.status.err = s.status.err ∧ t.status.code = s.status.code ∧ t.pending = s.pending

/-- BUSY is set only by an accepted launch, and cleared only by completion or reset (10_state R29). -/
def Obligations.OnlyLaunchAndCompletionMoveBusy : Prop :=
  ∀ s t : State, step s = .next t →
    (s.status.busy = false → t.status.busy = true →
      s.nextTurn = .host ∧ ∃ r dst rest v i, s.program = .bus r dst :: rest ∧ r.legal = true ∧
        r.off.toNat = 0x000 ∧ r.access = .write v ∧ decode v = .ok i ∧ t.pending = some v) ∧
    (s.status.busy = true → t.status.busy = false →
      s.nextTurn = .core ∨ s.nextTurn = .assertReset ∨ (s.nextTurn = .releaseReset ∧ s.rst = true))

/-! ### The hash family -/

/-- R140: SHA_INIT. Everything else of the state is as it was; issued twice it leaves the same H. -/
def Obligations.ShaInitLoadsInitialHash : Prop :=
  decode 0x00000001#32 = .ok .shaInit ∧
  ∀ s : State,
    exec .shaInit s = .next { s with
      h := #v[0x6a09e667, 0xbb67ae85, 0x3c6ef372, 0xa54ff53a, 0x510e527f, 0x9b05688c, 0x1f83d9ab, 0x5be0cd19],
      status := doneStatus s.status, pending := none } ∧
    ∀ t u, exec .shaInit s = .next t → exec .shaInit t = .next u → u.h = t.h

/-- R141: SHA_COMPRESS, in every state. H becomes the compression of H and BLK, and nothing else changes. -/
def Obligations.ShaCompressReplacesHashState : Prop :=
  decode 0x00000002#32 = .ok .shaCompress ∧
  ∀ s : State, exec .shaCompress s = .next { s with
    h := compress s.h s.blk, status := doneStatus s.status, pending := none }

/-- R112, R113, R114: `Compress` is the 64 rounds over the schedule, and the final addition. -/
def Obligations.CompressRunsSixtyFourRounds : Prop :=
  ∀ (hin : Vector Word 8) (m : Vector Word 16), ∃ (w : Nat → Word) (v : Nat → RoundVars),
    IsSchedule m w ∧ v 0 = ⟨hin[0], hin[1], hin[2], hin[3], hin[4], hin[5], hin[6], hin[7]⟩ ∧
    IsRounds (fun t => roundConstants.getD t 0) w v ∧
    compress hin m = #v[hin[0] + (v 64).a, hin[1] + (v 64).b, hin[2] + (v 64).c, hin[3] + (v 64).d,
      hin[4] + (v 64).e, hin[5] + (v 64).f, hin[6] + (v 64).g, hin[7] + (v 64).h]

/-- The constants are what R103 and R104 define: K[t] is the first 32 bits of the fractional part of the cube root of
the (t+1)-th prime, IV[i] those of the square root of the (i+1)-th. -/
def Obligations.ConstantsAreRootsOfPrimes : Prop :=
  roundConstants.length = 64 ∧
  (∀ t, t < 64 → ∃ q, (q * 2 ^ 32 + (roundConstants.getD t 0).toNat) ^ 3 ≤ firstPrimes.getD t 0 * 2 ^ 96 ∧
    firstPrimes.getD t 0 * 2 ^ 96 < (q * 2 ^ 32 + (roundConstants.getD t 0).toNat + 1) ^ 3) ∧
  (∀ i : Fin 8, ∃ q, (q * 2 ^ 32 + initialHash[i].toNat) ^ 2 ≤ firstPrimes.getD i 0 * 2 ^ 64 ∧
    firstPrimes.getD i 0 * 2 ^ 64 < (q * 2 ^ 32 + initialHash[i].toNat + 1) ^ 2)

/-- R102, bit by bit where it is a choice or a majority, as rotations where it is a mix. -/
def Obligations.LogicalFunctionsBitwise : Prop :=
  ∀ x y z : Word,
    (∀ j, j < 32 → (ch x y z).getLsbD j = if x.getLsbD j then y.getLsbD j else z.getLsbD j) ∧
    (∀ j, j < 32 → (maj x y z).getLsbD j =
      decide (2 ≤ (x.getLsbD j).toNat + (y.getLsbD j).toNat + (z.getLsbD j).toNat)) ∧
    bigSigma0 x = x.rotateRight 2 ^^^ x.rotateRight 13 ^^^ x.rotateRight 22 ∧
    bigSigma1 x = x.rotateRight 6 ^^^ x.rotateRight 11 ^^^ x.rotateRight 25 ∧
    smallSigma0 x = x.rotateRight 7 ^^^ x.rotateRight 18 ^^^ (x >>> 3) ∧
    smallSigma1 x = x.rotateRight 17 ^^^ x.rotateRight 19 ^^^ (x >>> 10)

/-- R110: the padded message is the message, 0x80, z zero bytes and the 64-bit big-endian bit length, in N(L) blocks; z
is the least that brings L + 1 + z to 56 mod 64. -/
def Obligations.PaddingFillsWholeBlocks : Prop :=
  ∀ m : List Byte, 8 * m.length < 2 ^ 64 →
    (pad m).length = 64 * blockCount m.length ∧ blockCount m.length = (m.length + 8) / 64 + 1 ∧
    (m.length + 1 + padZeros m.length) % 64 = 56 ∧ padZeros m.length ≤ 63 ∧
    ∃ e : List Byte, e.length = 8 ∧
      pad m = m ++ (0x80#8 :: (List.replicate (padZeros m.length) 0#8 ++ e)) ∧
      e.foldl (fun n b => 256 * n + b.toNat) 0 = 8 * m.length

/-- R111, R130: the hash state of a message is the chain of `Compress` over its big-endian blocks, from IV. -/
def Obligations.HashStateChainsItsBlocks : Prop :=
  ∀ m : List Byte, ∃ (chain : Nat → Vector Word 8) (blocks : Nat → Vector Word 16),
    chain 0 = #v[0x6a09e667, 0xbb67ae85, 0x3c6ef372, 0xa54ff53a, 0x510e527f, 0x9b05688c, 0x1f83d9ab, 0x5be0cd19] ∧
    (∀ i, i < blockCount m.length → IsBlock (pad m) i (blocks i) ∧ chain (i + 1) = compress (chain i) (blocks i)) ∧
    sha256State m = chain (blockCount m.length)

/-- R142: SHA_HASH, in every state. When a byte of the operand was never written since reset the command completes all
the same and H is unspecified: nothing is said of the value (log 6). -/
def Obligations.ShaHashHashesItsOperand : Prop :=
  decode 0x00000003#32 = .ok .shaHash ∧
  ∀ s : State,
    (s.bufBytes < s.len.toNat →
      exec .shaHash s = .next { s with status := errorStatus s.status .lenRange, pending := none }) ∧
    (s.len.toNat ≤ s.bufBytes → ∀ m, OperandIs s m →
      exec .shaHash s = .next { s with h := sha256State m, status := doneStatus s.status, pending := none }) ∧
    (s.len.toNat ≤ s.bufBytes → OperandUnwritten s →
      ∃ hash d, exec .shaHash s = .next { s with
        h := hash, status := doneStatus s.status, pending := none, draws := d })

/-- SHA_HASH reads DBUF[0 .. LEN−1] and nothing else: not H, not BLK, not NUM, not DBUF beyond LEN (20_memory R69). -/
def Obligations.ShaHashReadsOnlyItsOperand : Prop :=
  ∀ (s s' : State) (m : List Byte), s.len.toNat ≤ s.bufBytes → s'.len.toNat ≤ s'.bufBytes → s'.len = s.len →
    OperandIs s m → (∀ k, k < s.len.toNat → Memory.read s'.dbuf k = Memory.read s.dbuf k) →
    ∃ t t', exec .shaHash s = .next t ∧ exec .shaHash s' = .next t' ∧ t'.h = t.h

/-- R131: a message of any length hashed block by block ends with the whole-message hash state in H, the same that
SHA_HASH leaves for a message that fits the buffer. -/
def Obligations.BlockByBlockEqualsWholeHash : Prop :=
  ∀ (m : List Byte) (s : State), s.status.busy = false → 8 * m.length < 2 ^ 64 →
    ∃ t, hashByBlocks m (blockCount m.length) s = .next t ∧ t.h = sha256State m ∧
      ∀ u : State, u.len.toNat ≤ u.bufBytes → OperandIs u m → ∃ u', exec .shaHash u = .next u' ∧ u'.h = t.h

/-- The digest is the 32 bytes of H0 to H7, each word big-endian (40_sha256 R133). -/
def Obligations.DigestIsBigEndian : Prop :=
  ∀ h : Vector Word 8, (digest h).length = 32 ∧
    ∀ (i : Fin 8) (k : Nat), k < 4 →
      ((digest h).getD (4 * i + k) 0).toNat = h[i].toNat / 2 ^ (24 - 8 * k) % 256

/-! ### The codec family -/

/-- R160, R161: the exact value of a byte string. -/
def Obligations.DecodeIsSignedPositionalSum : Prop :=
  scriptDecode [] = 0 ∧
  ∀ (b : List Byte) (last : Byte),
    scriptDecode (b ++ [last]) =
      (if last.toNat < 128 then 1 else -1) *
        ((((List.range b.length).map fun k => (b.getD k 0).toNat * 256 ^ k).sum
          + last.toNat % 128 * 256 ^ b.length : Nat) : Int)

/-- Decoding is loose (41_numcodec R162): zero bytes put between a byte string's last byte and its sign do not change
the value, so it has longer and longer encodings. -/
def Obligations.NonMinimalEncodingsDecodeAlike : Prop :=
  ∀ (b : List Byte) (last : Byte) (n : Nat),
    scriptDecode (b ++ [last &&& 0x7F#8] ++ List.replicate n 0#8 ++ [last &&& 0x80#8]) = scriptDecode (b ++ [last])

/-- R163: a magnitude of zero decodes to 0 whatever its sign bit. -/
def Obligations.NegativeZeroDecodesToZero : Prop :=
  ∀ (n : Nat) (last : Byte), last &&& 0x7F#8 = 0 → scriptDecode (List.replicate n 0#8 ++ [last]) = 0

/-- R168: every `s64` value comes back from its encoding, and no encoding is out of range. -/
def Obligations.EncodeThenDecodeReturnsValue : Prop :=
  ∀ v : Int, -2 ^ 63 ≤ v → v ≤ 2 ^ 63 - 1 → scriptDecode (scriptEncode v) = v ∧ inS64 (scriptDecode (scriptEncode v)) = true

/-- R166: the length of an encoding. -/
def Obligations.EncodingLengthIsLeast : Prop :=
  (scriptEncode 0).length = 0 ∧
  ∀ v : Int, -2 ^ 63 ≤ v → v ≤ 2 ^ 63 - 1 → v ≠ 0 →
    1 ≤ (scriptEncode v).length ∧ (scriptEncode v).length ≤ 9 ∧
    ((scriptEncode v).length = 9 ↔ v = -2 ^ 63) ∧
    v.natAbs < 2 ^ (8 * (scriptEncode v).length - 1) ∧
    ∀ n, 1 ≤ n → v.natAbs < 2 ^ (8 * n - 1) → (scriptEncode v).length ≤ n

/-- R167: an encoding is the one shortest byte string of its value; its last byte is 0x00 or 0x80 only after a byte with
bit 7 set. -/
def Obligations.EncodingIsShortest : Prop :=
  (∀ b : List Byte, inS64 (scriptDecode b) = true →
    b = scriptEncode (scriptDecode b) ∨ (scriptEncode (scriptDecode b)).length < b.length) ∧
  (∀ (v : Int) (b : List Byte) (last : Byte), -2 ^ 63 ≤ v → v ≤ 2 ^ 63 - 1 → scriptEncode v = b ++ [last] →
    last = 0x00#8 ∨ last = 0x80#8 → ∃ b' x, b = b' ++ [x] ∧ x &&& 0x80#8 ≠ 0)

/-- `twos64` and `sint64` are inverse (00_scope R9). -/
def Obligations.TwosComplementRoundTrip : Prop :=
  (∀ v : Int, -2 ^ 63 ≤ v → v ≤ 2 ^ 63 - 1 → sint64 (twos64 v) = v) ∧
  (∀ x : DWord, twos64 (sint64 x) = x ∧ -2 ^ 63 ≤ sint64 x ∧ sint64 x ≤ 2 ^ 63 - 1)

/-- R170: NUM_DECODE, in every state. When a byte of the operand was never written since reset the command completes all
the same with an unspecified result: a value of NUM or NUM_RANGE (log 6). -/
def Obligations.NumDecodeWritesExactValue : Prop :=
  decode 0x00000010#32 = .ok .numDecode ∧
  ∀ s : State,
    (s.bufBytes < s.len.toNat →
      exec .numDecode s = .next { s with status := errorStatus s.status .lenRange, pending := none }) ∧
    (s.len.toNat ≤ s.bufBytes → ∀ b, OperandIs s b →
      (-2 ^ 63 ≤ scriptDecode b ∧ scriptDecode b ≤ 2 ^ 63 - 1 →
        ∃ x : DWord, sint64 x = scriptDecode b ∧
          exec .numDecode s = .next { s with num := x, status := doneStatus s.status, pending := none }) ∧
      (scriptDecode b < -2 ^ 63 ∨ 2 ^ 63 - 1 < scriptDecode b →
        exec .numDecode s = .next { s with status := errorStatus s.status .numRange, pending := none })) ∧
    (s.len.toNat ≤ s.bufBytes → OperandUnwritten s →
      ∃ d, (∃ x, exec .numDecode s = .next { s with
          num := x, status := doneStatus s.status, pending := none, draws := d }) ∨
        exec .numDecode s = .next { s with
          status := errorStatus s.status .numRange, pending := none, draws := d })

/-- R171: NUM_ENCODE, in every state: NUMLEN is the length of the encoding of the signed value in NUM, NUMOUT its bytes
and zeros after them. -/
def Obligations.NumEncodeWritesEncoding : Prop :=
  decode 0x00000011#32 = .ok .numEncode ∧
  ∀ s : State, ∃ (out : Vector Byte 9) (n : BitVec 4),
    n.toNat = (scriptEncode (sint64 s.num)).length ∧
    (∀ k : Fin 9, out[k] = (scriptEncode (sint64 s.num)).getD k 0) ∧
    exec .numEncode s = .next { s with
      numout := out, numlen := n, status := doneStatus s.status, pending := none }

/-- Encoding and decoding through the machine (41_numcodec R168, R171): NUM_DECODE of the bytes NUM_ENCODE left, in any
state that holds them in DBUF with LEN = NUMLEN, returns the same NUM without error, and changes nothing else. -/
def Obligations.CodecRoundTripThroughMachine : Prop :=
  ∀ s t u : State, exec .numEncode s = .next t → Config.ValidBufBytes u.bufBytes →
    u.len.toNat = t.numlen.toNat →
    (∀ k : Fin 9, k.val < t.numlen.toNat → Memory.read u.dbuf k = some t.numout[k]) →
    exec .numDecode u = .next { u with num := s.num, status := doneStatus u.status, pending := none }

/-! ### Reset -/

/-- R37: the state after reset. -/
def Obligations.ResetStateHasResetValues : Prop :=
  State.reset.AtResetValues ∧ State.reset.readReg .status = 0 ∧
  (State.reset.readReg .param).toNat = State.reset.bufBytes ∧ Config.ValidBufBytes State.reset.bufBytes

/-- Reset from any state, also with a command pending (70_reset_and_hazards R230): after assertion and again after
release every register holds its reset value, no command is pending, and the host and the parameter are as before. That
the values are taken at assertion already is the model's choice (log 11). -/
def Obligations.ResetAbandonsPendingCommand : Prop :=
  ∀ (s : State) (ts : List Turn), s.turns = .assertReset :: .releaseReset :: ts →
    ∃ t u, step s = .next t ∧ t.rst = true ∧ t.AtResetValues ∧ step t = .next u ∧ u.rst = false ∧ u.AtResetValues ∧
      u.param = s.param ∧ u.turns = ts ∧ u.program = s.program ∧ u.names = s.names

/-- A bus request of the host while reset is asserted gets no defined response (70_reset_and_hazards R230, 93 U9): the
model stops there, by the name of log 12. -/
def Obligations.RequestDuringResetStops : Prop :=
  ∀ s : State, s.rst = true → s.accessNext = true → step s = .fault .requestDuringReset

/-! ### The host agent -/

/-- An idle host's `WR` and `RD` lines (30_encoding R90): the write is the register's, the read binds its value to the
name; the line is done. The program, the names and the response kept in State are the model's host agent (logs 10,
16), and what an `RD` of a DBUF byte never written since reset binds is the model's choice (log 5). -/
def Obligations.HostLinesAccessTheirRegister : Prop :=
  ∀ (s : State) (r : Reg) (rest : List HostLine), s.nextTurn = .host → s.rst = false → s.status.busy = false →
    Config.ValidBufBytes s.bufBytes → (∀ i, r = .dbuf i → 4 * i < s.bufBytes) →
    (∀ v, s.program = wrLine r v :: rest →
      ∃ p, step s = .next { ({ s with program := rest, turns := s.turns.tail }).writeReg r v with resp := p }) ∧
    (∀ name, s.program = rdLine r name :: rest →
      ∃ p, step s = .next { s with
        program := rest, turns := s.turns.tail, names := (name, s.readReg r) :: s.names, resp := p })

/-- POLL reads STATUS, and is run again while it shows BUSY = 1 (30_encoding R91); the host agent is the model's
(log 16). -/
def Obligations.PollRepeatsWhileBusy : Prop :=
  ∀ (s : State) (dst : String) (rest : List HostLine), s.nextTurn = .host → s.rst = false →
    s.program = .poll dst :: rest →
    ∃ p, step s = .next { s with
      program := if s.status.busy then .poll dst :: rest else rest, turns := s.turns.tail,
      names := (dst, s.readReg .status) :: s.names, resp := p }

/-! ### The whole machine -/

/-- The invariant holds after reset. -/
def Obligations.ResetMeetsInvariant : Prop := State.reset.Inv

/-- Every step of every agent keeps the invariant: DBUF's canonical form and bound, a legal `BUF_BYTES`, PENDING a valid
command word exactly while BUSY, ERR with its code, NUMLEN and the zero tail of NUMOUT, and reset values while reset is
asserted (this last is the model's choice, log 11). -/
def Obligations.EveryStepKeepsInvariant : Prop :=
  ∀ s t : State, s.Inv → step s = .next t → t.Inv

/-- A safe state never stops: with the invariant, and no request while reset is asserted, every step answers a next
state. It rests on choices of the model: that the turn of an agent with nothing to do passes (log 2), that a read of a
DBUF byte never written since reset returns a value (log 5), that a command on such an operand completes (log 6), and
that an illegal request is a next state with an error response (log 9). -/
def Obligations.SafeStateNeverStops : Prop := ∀ s : State, s.Safe → s.Runs

/-- A pending command completes (60_exceptions R206), in at most one step more than there are turns listed, whatever the
host does meanwhile, unless a reset comes; and it is done on the operands as they stood at launch (20_memory R63, R66).
That the core's turn comes when no turn is listed is the model's scheduling (log 2), and that a command completes on an
operand with a byte never written since reset is the model's choice (log 6). -/
def Obligations.PendingCommandCompletesOnLaunchOperands : Prop :=
  ∀ s : State, s.Inv → s.status.busy = true → Turn.assertReset ∉ s.turns →
    ∃ (k : Nat) (i : Instr) (u t : State), k ≤ s.turns.length + 1 ∧ s.pending = some (encode i) ∧
      Host.Core.run Sys2Proof.core k s = .next t ∧ exec i u = .next t ∧ t.status.busy = false ∧
      u.h = s.h ∧ u.blk = s.blk ∧ (∀ a, Memory.read u.dbuf a = Memory.read s.dbuf a) ∧ u.len = s.len ∧ u.num = s.num ∧
      u.param = s.param
end

