-- ==== Sys2Proof/Laws/State.lean ====
section
/-! SUPPORT. One lemma per field per update of State, and of Status, true by rfl: later proofs cite these and unfold no
record update. -/

namespace Sys2Proof.Machine

/-! State.complete -/

@[simp] theorem State.complete_h (s : State) : s.complete.h = s.h := rfl
@[simp] theorem State.complete_blk (s : State) : s.complete.blk = s.blk := rfl
@[simp] theorem State.complete_dbuf (s : State) : s.complete.dbuf = s.dbuf := rfl
@[simp] theorem State.complete_len (s : State) : s.complete.len = s.len := rfl
@[simp] theorem State.complete_num (s : State) : s.complete.num = s.num := rfl
@[simp] theorem State.complete_numout (s : State) : s.complete.numout = s.numout := rfl
@[simp] theorem State.complete_numlen (s : State) : s.complete.numlen = s.numlen := rfl
@[simp] theorem State.complete_status (s : State) : s.complete.status = s.status.completed := rfl
@[simp] theorem State.complete_pending (s : State) : s.complete.pending = none := rfl
@[simp] theorem State.complete_param (s : State) : s.complete.param = s.param := rfl
@[simp] theorem State.complete_rst (s : State) : s.complete.rst = s.rst := rfl
@[simp] theorem State.complete_resp (s : State) : s.complete.resp = s.resp := rfl
@[simp] theorem State.complete_program (s : State) : s.complete.program = s.program := rfl
@[simp] theorem State.complete_names (s : State) : s.complete.names = s.names := rfl
@[simp] theorem State.complete_checks (s : State) : s.complete.checks = s.checks := rfl
@[simp] theorem State.complete_turns (s : State) : s.complete.turns = s.turns := rfl
@[simp] theorem State.complete_draws (s : State) : s.complete.draws = s.draws := rfl
@[simp] theorem State.complete_epoch (s : State) : s.complete.epoch = s.epoch := rfl

/-! State.raise -/

@[simp] theorem State.raise_h (s : State) (code : ErrCode) : (s.raise code).h = s.h := rfl
@[simp] theorem State.raise_blk (s : State) (code : ErrCode) : (s.raise code).blk = s.blk := rfl
@[simp] theorem State.raise_dbuf (s : State) (code : ErrCode) : (s.raise code).dbuf = s.dbuf := rfl
@[simp] theorem State.raise_len (s : State) (code : ErrCode) : (s.raise code).len = s.len := rfl
@[simp] theorem State.raise_num (s : State) (code : ErrCode) : (s.raise code).num = s.num := rfl
@[simp] theorem State.raise_numout (s : State) (code : ErrCode) : (s.raise code).numout = s.numout := rfl
@[simp] theorem State.raise_numlen (s : State) (code : ErrCode) : (s.raise code).numlen = s.numlen := rfl
@[simp] theorem State.raise_status (s : State) (code : ErrCode) : (s.raise code).status = s.status.failed code := rfl
@[simp] theorem State.raise_pending (s : State) (code : ErrCode) : (s.raise code).pending = none := rfl
@[simp] theorem State.raise_param (s : State) (code : ErrCode) : (s.raise code).param = s.param := rfl
@[simp] theorem State.raise_rst (s : State) (code : ErrCode) : (s.raise code).rst = s.rst := rfl
@[simp] theorem State.raise_resp (s : State) (code : ErrCode) : (s.raise code).resp = s.resp := rfl
@[simp] theorem State.raise_program (s : State) (code : ErrCode) : (s.raise code).program = s.program := rfl
@[simp] theorem State.raise_names (s : State) (code : ErrCode) : (s.raise code).names = s.names := rfl
@[simp] theorem State.raise_checks (s : State) (code : ErrCode) : (s.raise code).checks = s.checks := rfl
@[simp] theorem State.raise_turns (s : State) (code : ErrCode) : (s.raise code).turns = s.turns := rfl
@[simp] theorem State.raise_draws (s : State) (code : ErrCode) : (s.raise code).draws = s.draws := rfl
@[simp] theorem State.raise_epoch (s : State) (code : ErrCode) : (s.raise code).epoch = s.epoch := rfl

/-! State.setDbufWord -/

@[simp] theorem State.setDbufWord_h (s : State) (i : Nat) (v : Word) : (s.setDbufWord i v).h = s.h := rfl
@[simp] theorem State.setDbufWord_blk (s : State) (i : Nat) (v : Word) : (s.setDbufWord i v).blk = s.blk := rfl
@[simp] theorem State.setDbufWord_len (s : State) (i : Nat) (v : Word) : (s.setDbufWord i v).len = s.len := rfl
@[simp] theorem State.setDbufWord_num (s : State) (i : Nat) (v : Word) : (s.setDbufWord i v).num = s.num := rfl
@[simp] theorem State.setDbufWord_numout (s : State) (i : Nat) (v : Word) : (s.setDbufWord i v).numout = s.numout := rfl
@[simp] theorem State.setDbufWord_numlen (s : State) (i : Nat) (v : Word) : (s.setDbufWord i v).numlen = s.numlen := rfl
@[simp] theorem State.setDbufWord_status (s : State) (i : Nat) (v : Word) : (s.setDbufWord i v).status = s.status := rfl
@[simp] theorem State.setDbufWord_pending (s : State) (i : Nat) (v : Word) : (s.setDbufWord i v).pending =
    s.pending := rfl
@[simp] theorem State.setDbufWord_param (s : State) (i : Nat) (v : Word) : (s.setDbufWord i v).param = s.param := rfl
@[simp] theorem State.setDbufWord_rst (s : State) (i : Nat) (v : Word) : (s.setDbufWord i v).rst = s.rst := rfl
@[simp] theorem State.setDbufWord_resp (s : State) (i : Nat) (v : Word) : (s.setDbufWord i v).resp = s.resp := rfl
@[simp] theorem State.setDbufWord_program (s : State) (i : Nat) (v : Word) : (s.setDbufWord i v).program =
    s.program := rfl
@[simp] theorem State.setDbufWord_names (s : State) (i : Nat) (v : Word) : (s.setDbufWord i v).names = s.names := rfl
@[simp] theorem State.setDbufWord_checks (s : State) (i : Nat) (v : Word) : (s.setDbufWord i v).checks = s.checks := rfl
@[simp] theorem State.setDbufWord_turns (s : State) (i : Nat) (v : Word) : (s.setDbufWord i v).turns = s.turns := rfl
@[simp] theorem State.setDbufWord_draws (s : State) (i : Nat) (v : Word) : (s.setDbufWord i v).draws = s.draws := rfl
@[simp] theorem State.setDbufWord_epoch (s : State) (i : Nat) (v : Word) : (s.setDbufWord i v).epoch = s.epoch := rfl

/-! State.resetRegisters -/

@[simp] theorem State.resetRegisters_h (s : State) : s.resetRegisters.h = State.reset.h := rfl
@[simp] theorem State.resetRegisters_blk (s : State) : s.resetRegisters.blk = State.reset.blk := rfl
@[simp] theorem State.resetRegisters_dbuf (s : State) : s.resetRegisters.dbuf = [] := rfl
@[simp] theorem State.resetRegisters_len (s : State) : s.resetRegisters.len = 0 := rfl
@[simp] theorem State.resetRegisters_num (s : State) : s.resetRegisters.num = 0 := rfl
@[simp] theorem State.resetRegisters_numout (s : State) : s.resetRegisters.numout = State.reset.numout := rfl
@[simp] theorem State.resetRegisters_numlen (s : State) : s.resetRegisters.numlen = 0 := rfl
@[simp] theorem State.resetRegisters_status (s : State) : s.resetRegisters.status = Status.idle := rfl
@[simp] theorem State.resetRegisters_pending (s : State) : s.resetRegisters.pending = none := rfl
@[simp] theorem State.resetRegisters_param (s : State) : s.resetRegisters.param = s.param := rfl
@[simp] theorem State.resetRegisters_rst (s : State) : s.resetRegisters.rst = s.rst := rfl
@[simp] theorem State.resetRegisters_resp (s : State) : s.resetRegisters.resp = s.resp := rfl
@[simp] theorem State.resetRegisters_program (s : State) : s.resetRegisters.program = s.program := rfl
@[simp] theorem State.resetRegisters_names (s : State) : s.resetRegisters.names = s.names := rfl
@[simp] theorem State.resetRegisters_checks (s : State) : s.resetRegisters.checks = s.checks := rfl
@[simp] theorem State.resetRegisters_turns (s : State) : s.resetRegisters.turns = s.turns := rfl
@[simp] theorem State.resetRegisters_draws (s : State) : s.resetRegisters.draws = s.draws := rfl
@[simp] theorem State.resetRegisters_epoch (s : State) : s.resetRegisters.epoch = s.epoch + 1 := rfl

/-! State.drawWord -/

@[simp] theorem State.drawWord_h (s : State) : s.drawWord.2.h = s.h := rfl
@[simp] theorem State.drawWord_blk (s : State) : s.drawWord.2.blk = s.blk := rfl
@[simp] theorem State.drawWord_dbuf (s : State) : s.drawWord.2.dbuf = s.dbuf := rfl
@[simp] theorem State.drawWord_len (s : State) : s.drawWord.2.len = s.len := rfl
@[simp] theorem State.drawWord_num (s : State) : s.drawWord.2.num = s.num := rfl
@[simp] theorem State.drawWord_numout (s : State) : s.drawWord.2.numout = s.numout := rfl
@[simp] theorem State.drawWord_numlen (s : State) : s.drawWord.2.numlen = s.numlen := rfl
@[simp] theorem State.drawWord_status (s : State) : s.drawWord.2.status = s.status := rfl
@[simp] theorem State.drawWord_pending (s : State) : s.drawWord.2.pending = s.pending := rfl
@[simp] theorem State.drawWord_param (s : State) : s.drawWord.2.param = s.param := rfl
@[simp] theorem State.drawWord_rst (s : State) : s.drawWord.2.rst = s.rst := rfl
@[simp] theorem State.drawWord_resp (s : State) : s.drawWord.2.resp = s.resp := rfl
@[simp] theorem State.drawWord_program (s : State) : s.drawWord.2.program = s.program := rfl
@[simp] theorem State.drawWord_names (s : State) : s.drawWord.2.names = s.names := rfl
@[simp] theorem State.drawWord_checks (s : State) : s.drawWord.2.checks = s.checks := rfl
@[simp] theorem State.drawWord_turns (s : State) : s.drawWord.2.turns = s.turns := rfl
@[simp] theorem State.drawWord_draws (s : State) : s.drawWord.2.draws = s.draws + 1 := rfl
@[simp] theorem State.drawWord_epoch (s : State) : s.drawWord.2.epoch = s.epoch := rfl

/-! State.drawHash -/

@[simp] theorem State.drawHash_h (s : State) : s.drawHash.2.h = s.h := rfl
@[simp] theorem State.drawHash_blk (s : State) : s.drawHash.2.blk = s.blk := rfl
@[simp] theorem State.drawHash_dbuf (s : State) : s.drawHash.2.dbuf = s.dbuf := rfl
@[simp] theorem State.drawHash_len (s : State) : s.drawHash.2.len = s.len := rfl
@[simp] theorem State.drawHash_num (s : State) : s.drawHash.2.num = s.num := rfl
@[simp] theorem State.drawHash_numout (s : State) : s.drawHash.2.numout = s.numout := rfl
@[simp] theorem State.drawHash_numlen (s : State) : s.drawHash.2.numlen = s.numlen := rfl
@[simp] theorem State.drawHash_status (s : State) : s.drawHash.2.status = s.status := rfl
@[simp] theorem State.drawHash_pending (s : State) : s.drawHash.2.pending = s.pending := rfl
@[simp] theorem State.drawHash_param (s : State) : s.drawHash.2.param = s.param := rfl
@[simp] theorem State.drawHash_rst (s : State) : s.drawHash.2.rst = s.rst := rfl
@[simp] theorem State.drawHash_resp (s : State) : s.drawHash.2.resp = s.resp := rfl
@[simp] theorem State.drawHash_program (s : State) : s.drawHash.2.program = s.program := rfl
@[simp] theorem State.drawHash_names (s : State) : s.drawHash.2.names = s.names := rfl
@[simp] theorem State.drawHash_checks (s : State) : s.drawHash.2.checks = s.checks := rfl
@[simp] theorem State.drawHash_turns (s : State) : s.drawHash.2.turns = s.turns := rfl
@[simp] theorem State.drawHash_draws (s : State) : s.drawHash.2.draws = s.draws + 8 := rfl
@[simp] theorem State.drawHash_epoch (s : State) : s.drawHash.2.epoch = s.epoch := rfl

/-! State.drawInt -/

@[simp] theorem State.drawInt_h (s : State) : s.drawInt.2.h = s.h := rfl
@[simp] theorem State.drawInt_blk (s : State) : s.drawInt.2.blk = s.blk := rfl
@[simp] theorem State.drawInt_dbuf (s : State) : s.drawInt.2.dbuf = s.dbuf := rfl
@[simp] theorem State.drawInt_len (s : State) : s.drawInt.2.len = s.len := rfl
@[simp] theorem State.drawInt_num (s : State) : s.drawInt.2.num = s.num := rfl
@[simp] theorem State.drawInt_numout (s : State) : s.drawInt.2.numout = s.numout := rfl
@[simp] theorem State.drawInt_numlen (s : State) : s.drawInt.2.numlen = s.numlen := rfl
@[simp] theorem State.drawInt_status (s : State) : s.drawInt.2.status = s.status := rfl
@[simp] theorem State.drawInt_pending (s : State) : s.drawInt.2.pending = s.pending := rfl
@[simp] theorem State.drawInt_param (s : State) : s.drawInt.2.param = s.param := rfl
@[simp] theorem State.drawInt_rst (s : State) : s.drawInt.2.rst = s.rst := rfl
@[simp] theorem State.drawInt_resp (s : State) : s.drawInt.2.resp = s.resp := rfl
@[simp] theorem State.drawInt_program (s : State) : s.drawInt.2.program = s.program := rfl
@[simp] theorem State.drawInt_names (s : State) : s.drawInt.2.names = s.names := rfl
@[simp] theorem State.drawInt_checks (s : State) : s.drawInt.2.checks = s.checks := rfl
@[simp] theorem State.drawInt_turns (s : State) : s.drawInt.2.turns = s.turns := rfl
@[simp] theorem State.drawInt_draws (s : State) : s.drawInt.2.draws = s.draws + 1 := rfl
@[simp] theorem State.drawInt_epoch (s : State) : s.drawInt.2.epoch = s.epoch := rfl

/-! State.takeTurn -/

@[simp] theorem State.takeTurn_h (s : State) : s.takeTurn.h = s.h := rfl
@[simp] theorem State.takeTurn_blk (s : State) : s.takeTurn.blk = s.blk := rfl
@[simp] theorem State.takeTurn_dbuf (s : State) : s.takeTurn.dbuf = s.dbuf := rfl
@[simp] theorem State.takeTurn_len (s : State) : s.takeTurn.len = s.len := rfl
@[simp] theorem State.takeTurn_num (s : State) : s.takeTurn.num = s.num := rfl
@[simp] theorem State.takeTurn_numout (s : State) : s.takeTurn.numout = s.numout := rfl
@[simp] theorem State.takeTurn_numlen (s : State) : s.takeTurn.numlen = s.numlen := rfl
@[simp] theorem State.takeTurn_status (s : State) : s.takeTurn.status = s.status := rfl
@[simp] theorem State.takeTurn_pending (s : State) : s.takeTurn.pending = s.pending := rfl
@[simp] theorem State.takeTurn_param (s : State) : s.takeTurn.param = s.param := rfl
@[simp] theorem State.takeTurn_rst (s : State) : s.takeTurn.rst = s.rst := rfl
@[simp] theorem State.takeTurn_resp (s : State) : s.takeTurn.resp = s.resp := rfl
@[simp] theorem State.takeTurn_program (s : State) : s.takeTurn.program = s.program := rfl
@[simp] theorem State.takeTurn_names (s : State) : s.takeTurn.names = s.names := rfl
@[simp] theorem State.takeTurn_checks (s : State) : s.takeTurn.checks = s.checks := rfl
@[simp] theorem State.takeTurn_turns (s : State) : s.takeTurn.turns = s.turns.tail := rfl
@[simp] theorem State.takeTurn_draws (s : State) : s.takeTurn.draws = s.draws := rfl
@[simp] theorem State.takeTurn_epoch (s : State) : s.takeTurn.epoch = s.epoch := rfl

/-! State.bind, whose name may be absent -/

@[simp] theorem State.bind_h (s : State) (n : Option String) (w : Word) : (s.bind n w).h = s.h := by
  cases n <;> rfl
@[simp] theorem State.bind_blk (s : State) (n : Option String) (w : Word) : (s.bind n w).blk = s.blk := by
  cases n <;> rfl
@[simp] theorem State.bind_dbuf (s : State) (n : Option String) (w : Word) : (s.bind n w).dbuf = s.dbuf := by
  cases n <;> rfl
@[simp] theorem State.bind_len (s : State) (n : Option String) (w : Word) : (s.bind n w).len = s.len := by
  cases n <;> rfl
@[simp] theorem State.bind_num (s : State) (n : Option String) (w : Word) : (s.bind n w).num = s.num := by
  cases n <;> rfl
@[simp] theorem State.bind_numout (s : State) (n : Option String) (w : Word) : (s.bind n w).numout = s.numout := by
  cases n <;> rfl
@[simp] theorem State.bind_numlen (s : State) (n : Option String) (w : Word) : (s.bind n w).numlen = s.numlen := by
  cases n <;> rfl
@[simp] theorem State.bind_status (s : State) (n : Option String) (w : Word) : (s.bind n w).status = s.status := by
  cases n <;> rfl
@[simp] theorem State.bind_pending (s : State) (n : Option String) (w : Word) : (s.bind n w).pending = s.pending := by
  cases n <;> rfl
@[simp] theorem State.bind_param (s : State) (n : Option String) (w : Word) : (s.bind n w).param = s.param := by
  cases n <;> rfl
@[simp] theorem State.bind_rst (s : State) (n : Option String) (w : Word) : (s.bind n w).rst = s.rst := by
  cases n <;> rfl
@[simp] theorem State.bind_resp (s : State) (n : Option String) (w : Word) : (s.bind n w).resp = s.resp := by
  cases n <;> rfl
@[simp] theorem State.bind_program (s : State) (n : Option String) (w : Word) : (s.bind n w).program = s.program := by
  cases n <;> rfl
@[simp] theorem State.bind_checks (s : State) (n : Option String) (w : Word) : (s.bind n w).checks = s.checks := by
  cases n <;> rfl
@[simp] theorem State.bind_turns (s : State) (n : Option String) (w : Word) : (s.bind n w).turns = s.turns := by
  cases n <;> rfl
@[simp] theorem State.bind_draws (s : State) (n : Option String) (w : Word) : (s.bind n w).draws = s.draws := by
  cases n <;> rfl
@[simp] theorem State.bind_epoch (s : State) (n : Option String) (w : Word) : (s.bind n w).epoch = s.epoch := by
  cases n <;> rfl
@[simp] theorem State.bind_names_some (s : State) (n : String) (w : Word) :
    (s.bind (some n) w).names = (n, w) :: s.names := rfl
@[simp] theorem State.bind_names_none (s : State) (w : Word) : (s.bind none w).names = s.names := rfl

/-! Status -/

@[simp] theorem Status.dropped_busy (t : Status) : t.dropped.busy = t.busy := rfl
@[simp] theorem Status.dropped_err (t : Status) : t.dropped.err = t.err := rfl
@[simp] theorem Status.dropped_drop (t : Status) : t.dropped.drop = true := rfl
@[simp] theorem Status.dropped_code (t : Status) : t.dropped.code = t.code := rfl
@[simp] theorem Status.illegalLaunch_busy (t : Status) : t.illegalLaunch.busy = t.busy := rfl
@[simp] theorem Status.illegalLaunch_err (t : Status) : t.illegalLaunch.err = true := rfl
@[simp] theorem Status.illegalLaunch_drop (t : Status) : t.illegalLaunch.drop = false := rfl
@[simp] theorem Status.illegalLaunch_code (t : Status) : t.illegalLaunch.code = .illegalCmd := rfl
@[simp] theorem Status.launched_busy (t : Status) : t.launched.busy = true := rfl
@[simp] theorem Status.launched_err (t : Status) : t.launched.err = false := rfl
@[simp] theorem Status.launched_drop (t : Status) : t.launched.drop = false := rfl
@[simp] theorem Status.launched_code (t : Status) : t.launched.code = .none := rfl
@[simp] theorem Status.completed_busy (t : Status) : t.completed.busy = false := rfl
@[simp] theorem Status.completed_err (t : Status) : t.completed.err = false := rfl
@[simp] theorem Status.completed_drop (t : Status) : t.completed.drop = t.drop := rfl
@[simp] theorem Status.completed_code (t : Status) : t.completed.code = .none := rfl
@[simp] theorem Status.failed_busy (t : Status) (c : ErrCode) : (t.failed c).busy = false := rfl
@[simp] theorem Status.failed_err (t : Status) (c : ErrCode) : (t.failed c).err = true := rfl
@[simp] theorem Status.failed_drop (t : Status) (c : ErrCode) : (t.failed c).drop = t.drop := rfl
@[simp] theorem Status.failed_code (t : Status) (c : ErrCode) : (t.failed c).code = c := rfl

/-! Derived readings -/

@[simp] theorem State.complete_bufBytes (s : State) : s.complete.bufBytes = s.bufBytes := rfl
@[simp] theorem State.raise_bufBytes (s : State) (code : ErrCode) : (s.raise code).bufBytes = s.bufBytes := rfl
@[simp] theorem State.setDbufWord_bufBytes (s : State) (i : Nat) (v : Word) :
    (s.setDbufWord i v).bufBytes = s.bufBytes := rfl
@[simp] theorem State.resetRegisters_bufBytes (s : State) : s.resetRegisters.bufBytes = s.bufBytes := rfl
@[simp] theorem State.drawWord_bufBytes (s : State) : s.drawWord.2.bufBytes = s.bufBytes := rfl
@[simp] theorem State.drawHash_bufBytes (s : State) : s.drawHash.2.bufBytes = s.bufBytes := rfl
@[simp] theorem State.drawInt_bufBytes (s : State) : s.drawInt.2.bufBytes = s.bufBytes := rfl
@[simp] theorem State.takeTurn_bufBytes (s : State) : s.takeTurn.bufBytes = s.bufBytes := rfl

end Sys2Proof.Machine
end

