-- ==== Sys2Proof/Laws/Memory.lean ====
section
/-! SUPPORT. The laws of DBUF: a read after a write, the canonical form, words of four bytes, and byte strings. -/

namespace Sys2Proof.Machine

@[simp] theorem Memory.read_nil (k : Nat) : Memory.read [] k = none := rfl

@[simp] theorem Memory.read_write_same (m : Memory) (k : Nat) (v : Byte) : Memory.read (Memory.write m k v) k =
    some v := by
  induction m with
  | nil => simp [Memory.write, Memory.read]
  | cons c m ih =>
    obtain ⟨a, b⟩ := c
    unfold Memory.write
    split
    · simp [Memory.read]
    · split
      · simp [Memory.read]
      · simp [Memory.read, *]

theorem Memory.read_write_other (m : Memory) (k k' : Nat) (v : Byte) (hne : k' ≠ k) :
    Memory.read (Memory.write m k v) k' = Memory.read m k' := by
  induction m with
  | nil => simp [Memory.write, Memory.read, hne]
  | cons c m ih =>
    obtain ⟨a, b⟩ := c
    unfold Memory.write
    split
    · simp [Memory.read, hne]
    · split
      · next h => subst h; simp [Memory.read, hne]
      · simp [Memory.read, ih]

/-- What a read gives after a write, at any index. -/
theorem Memory.read_write (m : Memory) (k k' : Nat) (v : Byte) :
    Memory.read (Memory.write m k v) k' = if k' = k then some v else Memory.read m k' := by
  split
  · next h => subst h; simp
  · next h => exact Memory.read_write_other m k k' v h

/-- The first index of a buffer in canonical form is below every index of the rest. -/
theorem Memory.wf_cons (c : Host.Cell) (m : Memory) :
    Memory.wf (c :: m) = true ↔ (∀ c' ∈ m.head?, c.1 < c'.1) ∧ Memory.wf m = true := by
  cases m with
  | nil => simp [Memory.wf]
  | cons c' m => simp [Memory.wf]

/-- The first index after a write is the old first index or the index written. -/
theorem Memory.head_write (m : Memory) (k : Nat) (v : Byte) (c : Host.Cell)
    (h : c ∈ (Memory.write m k v).head?) : c.1 = k ∨ ∃ c' ∈ m.head?, c.1 = c'.1 := by
  cases m with
  | nil => simp_all [Memory.write]; simp [← h]
  | cons d m =>
    obtain ⟨a, b⟩ := d
    unfold Memory.write at h
    split at h
    · simp at h; simp [← h]
    · split at h
      · simp at h; simp [← h]
      · simp at h; simp [← h]

/-- A write keeps the canonical form. -/
theorem Memory.wf_write (m : Memory) (k : Nat) (v : Byte) (h : Memory.wf m = true) :
    Memory.wf (Memory.write m k v) = true := by
  induction m with
  | nil => rfl
  | cons c m ih =>
    obtain ⟨a, b⟩ := c
    have hm := (Memory.wf_cons _ _).mp h
    unfold Memory.write
    split
    · next hk => exact (Memory.wf_cons _ _).mpr ⟨by simpa using hk, h⟩
    · split
      · next hk => subst hk; exact (Memory.wf_cons _ _).mpr hm
      · next h1 h2 =>
        refine (Memory.wf_cons _ _).mpr ⟨fun c hc => ?_, ih hm.2⟩
        rcases Memory.head_write m k v c hc with hk | ⟨c', hc', hk⟩
        · simp only [hk]; omega
        · rw [hk]; exact hm.1 c' hc'

/-- A byte of the word written is the word's byte; every other byte is as before (20_memory R54, R57). -/
theorem State.read_setDbufWord (s : State) (i : Nat) (v : Word) (k : Nat) :
    Memory.read (s.setDbufWord i v).dbuf k =
      if k / 4 = i then some (wordByte v (k % 4)) else Memory.read s.dbuf k := by
  simp only [State.setDbufWord, Memory.read_write]
  by_cases h : k / 4 = i
  · have : k = 4 * i ∨ k = 4 * i + 1 ∨ k = 4 * i + 2 ∨ k = 4 * i + 3 := by omega
    rcases this with rfl | rfl | rfl | rfl
    · simp
    · have : (4 * i + 1) % 4 = 1 := by omega
      simp [h, this]
    · have : (4 * i + 2) % 4 = 2 := by omega
      simp [h, this]
    · have : (4 * i + 3) % 4 = 3 := by omega
      simp [h, this]
  · have h0 : k ≠ 4 * i := by omega
    have h1 : k ≠ 4 * i + 1 := by omega
    have h2 : k ≠ 4 * i + 2 := by omega
    have h3 : k ≠ 4 * i + 3 := by omega
    simp [h, h0, h1, h2, h3]

/-- Writing a word keeps the canonical form. -/
theorem State.wf_setDbufWord (s : State) (i : Nat) (v : Word) (h : Memory.wf s.dbuf = true) :
    Memory.wf (s.setDbufWord i v).dbuf = true :=
  Memory.wf_write _ _ _ (Memory.wf_write _ _ _ (Memory.wf_write _ _ _ (Memory.wf_write _ _ _ h)))

/-- A byte string is read exactly when every byte of it was written. -/
theorem Memory.readString_eq_some (m : Memory) (k n : Nat) (bs : List Byte) :
    Memory.readString m k n = some bs ↔
      bs.length = n ∧ ∀ j (hj : j < bs.length), Memory.read m (k + j) = some bs[j] := by
  induction n generalizing k bs with
  | zero =>
    constructor
    · intro h
      obtain rfl : [] = bs := by simpa [Memory.readString] using h
      exact ⟨rfl, fun j hj => absurd hj (Nat.not_lt_zero j)⟩
    · rintro ⟨h, -⟩
      rw [List.length_eq_zero_iff.mp h]; rfl
  | succ n ih =>
    constructor
    · intro h
      unfold Memory.readString at h
      split at h
      · next b bs' hb hbs =>
        obtain rfl : b :: bs' = bs := by simpa using h
        obtain ⟨hl, hr⟩ := (ih (k + 1) bs').mp hbs
        refine ⟨by simp [hl], fun j hj => ?_⟩
        cases j with
        | zero => simpa using hb
        | succ j =>
          have := hr j (by simpa using hj)
          rw [show k + (j + 1) = k + 1 + j by omega]
          simpa using this
      · cases h
    · rintro ⟨hl, hr⟩
      cases bs with
      | nil => simp at hl
      | cons b bs' =>
        have hb : Memory.read m k = some b := hr 0 (by simp)
        have hbs : Memory.readString m (k + 1) n = some bs' := by
          refine (ih (k + 1) bs').mpr ⟨by simpa using hl, fun j hj => ?_⟩
          have := hr (j + 1) (by simpa using hj)
          rw [show k + 1 + j = k + (j + 1) by omega]
          simpa using this
        simp [Memory.readString, hb, hbs]

/-- A byte string is not read exactly when some byte of it was never written. -/
theorem Memory.readString_eq_none (m : Memory) (k n : Nat) :
    Memory.readString m k n = none ↔ ∃ j, j < n ∧ Memory.read m (k + j) = none := by
  induction n generalizing k with
  | zero => simp [Memory.readString]
  | succ n ih =>
    unfold Memory.readString
    cases hb : Memory.read m k with
    | none => simp only [true_iff]; exact ⟨0, by omega, by simpa using hb⟩
    | some b =>
      cases hbs : Memory.readString m (k + 1) n with
      | none =>
        obtain ⟨j, hj, hr⟩ := (ih (k + 1)).mp hbs
        simp only [true_iff]
        exact ⟨j + 1, by omega, by rw [show k + (j + 1) = k + 1 + j by omega]; exact hr⟩
      | some bs =>
        simp only [reduceCtorEq, false_iff]
        rintro ⟨j, hj, hr⟩
        cases j with
        | zero => simp [hb] at hr
        | succ j =>
          have := (ih (k + 1)).mpr ⟨j, by omega, by rw [show k + 1 + j = k + (j + 1) by omega]; exact hr⟩
          simp [hbs] at this

end Sys2Proof.Machine
end

