-- ==== Sys2Proof/Laws/Ops.lean ====
section
/-! SUPPORT. What each shared operation can do, said once: the provers cite these and do not unfold the operations. -/

namespace Sys2Proof.Machine

/-- A command word decodes to a command, or is illegal. -/
theorem decode_cases (c : Word) : (∃ i, decode c = .ok i) ∨ ∃ e, decode c = .error e := by
  cases decode c with
  | ok i => exact .inl ⟨i, rfl⟩
  | error e => exact .inr ⟨e, rfl⟩

/-- A launch either takes the word of a command or reports ILLEGAL_CMD. -/
theorem State.launch_cases (s : State) (c : Word) :
    (∃ i, decode c = .ok i ∧ s.launch c = { s with status := s.status.launched, pending := some c }) ∨
    (∃ e, decode c = .error e ∧ s.launch c = { s with status := s.status.illegalLaunch }) := by
  unfold State.launch
  cases h : decode c with
  | ok i => exact .inl ⟨i, rfl, rfl⟩
  | error e => exact .inr ⟨e, rfl, rfl⟩

/-- A read changes nothing but the draw counter, and that only for an undefined read while busy. -/
theorem State.busRead_state (s : State) (off : Offset) :
    (s.busRead off).2 = s ∨ (s.status.busy = true ∧ (s.busRead off).2 = { s with draws := s.draws + 1 }) := by
  unfold State.busRead
  cases regAt s.bufBytes off with
  | none => exact .inl rfl
  | some r =>
    dsimp only
    split
    · next h => exact .inr ⟨by simp_all, rfl⟩
    · exact .inl rfl

/-- While idle, a read returns the register at the offset, or 0 in reserved space, and changes nothing. -/
theorem State.busRead_idle (s : State) (off : Offset) (h : s.status.busy = false) :
    s.busRead off = (match regAt s.bufBytes off with | none => 0#32 | some r => s.readReg r, s) := by
  unfold State.busRead
  cases regAt s.bufBytes off <;> simp [h]

/-- A write while busy only sets DROP. -/
theorem State.busWrite_busy (s : State) (off : Offset) (v : Word) (h : s.status.busy = true) :
    s.busWrite off v = { s with status := s.status.dropped } := by
  simp [State.busWrite, h]

/-- A write while idle writes the register at the offset; in reserved space it does nothing. -/
theorem State.busWrite_idle (s : State) (off : Offset) (v : Word) (h : s.status.busy = false) :
    s.busWrite off v = match regAt s.bufBytes off with | none => s | some r => s.writeReg r v := by
  unfold State.busWrite
  cases regAt s.bufBytes off <;> simp [h]

/-- What a register write can be. -/
theorem State.writeReg_cases (s : State) (r : Reg) (v : Word) :
    (r = .cmd ∧ s.writeReg r v = s.launch v) ∨
    (r = .len ∧ s.writeReg r v = { s with len := v.extractLsb' 0 16 }) ∨
    (r = .numLo ∧ s.writeReg r v = { s with num := s.num.extractLsb' 32 32 ++ v }) ∨
    (r = .numHi ∧ s.writeReg r v = { s with num := v ++ s.num.extractLsb' 0 32 }) ∨
    (∃ i, r = .h i ∧ s.writeReg r v = { s with h := s.h.set i v }) ∨
    (∃ j, r = .blk j ∧ s.writeReg r v = { s with blk := s.blk.set j v }) ∨
    (∃ i, r = .dbuf i ∧ s.writeReg r v = s.setDbufWord i v) ∨
    s.writeReg r v = s := by
  cases r <;> simp [State.writeReg]

/-- What a request can do: nothing but respond, a read's draw, or a write. -/
theorem State.request_cases (s : State) (r : BusRequest) :
    (∃ p, s.request r = { s with resp := p }) ∨
    (∃ p, r.legal = true ∧ r.access = .read ∧ s.status.busy = true ∧
      s.request r = { s with draws := s.draws + 1, resp := p }) ∨
    (∃ v p, r.legal = true ∧ r.access = .write v ∧ s.request r = { s.busWrite r.off v with resp := p }) := by
  unfold State.request
  split
  · next hl =>
    split
    · next ha =>
      rcases s.busRead_state r.off with h | ⟨hb, h⟩
      · exact .inl ⟨_, by rw [h]⟩
      · exact .inr (.inl ⟨_, hl, ha, hb, by rw [h]⟩)
    · next v ha => exact .inr (.inr ⟨v, _, hl, ha, rfl⟩)
  · split <;> exact .inl ⟨_, rfl⟩

/-- The two ways NUM_DECODE ends once it has the exact value. -/
theorem State.finishDecode_cases (s : State) (v : Int) :
    (inS64 v = true ∧ s.finishDecode v = { s with num := twos64 v }.complete) ∨
    (inS64 v = false ∧ s.finishDecode v = s.raise .numRange) := by
  unfold State.finishDecode
  cases inS64 v <;> simp

/-- What every command does: it answers a next state, which is one of these. -/
theorem exec_cases (i : Instr) (s t : State) (h : exec i s = .next t) :
    (∃ hash d, (i = .shaInit ∨ i = .shaCompress ∨ i = .shaHash) ∧
      t = State.complete { s with h := hash, draws := d }) ∨
    (∃ n d, i = .numDecode ∧ t = State.complete { s with num := n, draws := d }) ∨
    (∃ out n, i = .numEncode ∧ t = State.complete { s with numout := out, numlen := n }) ∨
    ((i = .shaHash ∨ i = .numDecode) ∧ s.lenOutOfRange = true ∧ t = s.raise .lenRange) ∨
    (∃ d, i = .numDecode ∧ s.lenOutOfRange = false ∧ t = State.raise { s with draws := d } .numRange) := by
  cases i with
  | shaInit =>
    obtain rfl : _ = t := by simpa [exec, execShaInit] using h
    exact .inl ⟨_, _, .inl rfl, rfl⟩
  | shaCompress =>
    obtain rfl : _ = t := by simpa [exec, execShaCompress] using h
    exact .inl ⟨_, _, .inr (.inl rfl), rfl⟩
  | shaHash =>
    simp only [exec, execShaHash] at h
    split at h
    · next hl =>
      obtain rfl : _ = t := by simpa using h
      exact .inr (.inr (.inr (.inl ⟨.inl rfl, hl, rfl⟩)))
    · split at h
      · obtain rfl : _ = t := by simpa using h
        exact .inl ⟨_, _, .inr (.inr rfl), rfl⟩
      · obtain rfl : _ = t := by simpa using h
        exact .inl ⟨_, _, .inr (.inr rfl), rfl⟩
  | numDecode =>
    simp only [exec, execNumDecode] at h
    split at h
    · next hl =>
      obtain rfl : _ = t := by simpa using h
      exact .inr (.inr (.inr (.inl ⟨.inr rfl, hl, rfl⟩)))
    · next hl =>
      have hl' : s.lenOutOfRange = false := by simpa using hl
      split at h
      · next b hb =>
        obtain rfl : _ = t := by simpa using h
        rcases s.finishDecode_cases (scriptDecode b) with ⟨-, hf⟩ | ⟨-, hf⟩
        · exact .inr (.inl ⟨_, _, rfl, hf⟩)
        · exact .inr (.inr (.inr (.inr ⟨s.draws, rfl, hl', hf⟩)))
      · obtain rfl : _ = t := by simpa using h
        rcases s.drawInt.2.finishDecode_cases s.drawInt.1 with ⟨-, hf⟩ | ⟨-, hf⟩
        · exact .inr (.inl ⟨_, _, rfl, hf⟩)
        · exact .inr (.inr (.inr (.inr ⟨s.draws + 1, rfl, hl', hf⟩)))
  | numEncode =>
    obtain rfl : _ = t := by simpa [exec, execNumEncode] using h
    exact .inr (.inr (.inl ⟨_, _, rfl, rfl⟩))

/-- What the core's step can be. -/
theorem coreStep_cases (s t : State) (h : coreStep s = .next t) :
    (s.status.busy = false ∧ t = s) ∨
    (∃ c i, s.status.busy = true ∧ s.pending = some c ∧ decode c = .ok i ∧ exec i s = .next t) := by
  unfold coreStep at h
  split at h
  · next hb =>
    split at h
    · cases h
    · next c hc =>
      split at h
      · cases h
      · next i hi => exact .inr ⟨c, i, hb, hc, hi, h⟩
  · next hb =>
    obtain rfl : s = t := by simpa using h
    exact .inl ⟨by simpa using hb, rfl⟩

/-- What a host access can be. -/
theorem hostAccess_cases (s t : State) (r : BusRequest) (dst : Option String) (h : hostAccess s r dst = .next t) :
    s.rst = false ∧ t = (s.request r).bind dst (s.request r).respData := by
  unfold hostAccess at h
  split at h
  · cases h
  · next hr =>
    obtain rfl : _ = t := by simpa using h
    exact ⟨by simpa using hr, rfl⟩

/-- What the host's step can be: nothing, an assertion, or one request. -/
theorem hostStep_cases (s t : State) (h : hostStep s = .next t) :
    (s.program = [] ∧ t = s) ∨
    (∃ e rest, s.program = .expect e :: rest ∧ t = { s with program := rest, checks := s.satisfies e :: s.checks }) ∨
    (∃ r dst rest, s.program = .bus r dst :: rest ∧ hostAccess { s with program := rest } r dst = .next t) ∨
    (∃ dst rest p, s.program = .poll dst :: rest ∧
      hostAccess { s with program := p } statusRead (some dst) = .next t) := by
  unfold hostStep at h
  split at h
  · next hp =>
    obtain rfl : s = t := by simpa using h
    exact .inl ⟨hp, rfl⟩
  · next r dst rest hp => exact .inr (.inr (.inl ⟨r, dst, rest, hp, h⟩))
  · next dst rest hp => exact .inr (.inr (.inr ⟨dst, rest, _, hp, h⟩))
  · next e rest hp =>
    obtain rfl : _ = t := by simpa using h
    exact .inr (.inl ⟨e, rest, hp, rfl⟩)

/-- What releasing reset does: with reset asserted the registers take their reset values, else nothing happens. -/
theorem releaseResetStep_cases (s : State) :
    (s.rst = true ∧ releaseResetStep s = { s.resetRegisters with rst := false }) ∨
    (s.rst = false ∧ releaseResetStep s = s) := by
  unfold releaseResetStep
  cases h : s.rst <;> simp

/-- What a step can be: the step of the agent whose turn it is, on the state with its turn taken. -/
theorem step_cases (s t : State) (h : step s = .next t) :
    (s.nextTurn = .host ∧ hostStep s.takeTurn = .next t) ∨
    (s.nextTurn = .core ∧ coreStep s.takeTurn = .next t) ∨
    (s.nextTurn = .assertReset ∧ t = assertResetStep s.takeTurn) ∨
    (s.nextTurn = .releaseReset ∧ t = releaseResetStep s.takeTurn) := by
  unfold step agentStep at h
  split at h
  · next ht => exact .inl ⟨ht, h⟩
  · next ht => exact .inr (.inl ⟨ht, h⟩)
  · next ht => exact .inr (.inr (.inl ⟨ht, by simpa using h.symm⟩))
  · next ht => exact .inr (.inr (.inr ⟨ht, by simpa using h.symm⟩))

/-- A turn that is listed is taken in order. -/
theorem State.nextTurn_of_turns (s : State) (u : Turn) (us : List Turn) (h : s.turns = u :: us) : s.nextTurn = u := by
  simp [State.nextTurn, h]

end Sys2Proof.Machine
end

