-- ==== Sys2Proof/Laws/Machine.lean ====
section
/-! SUPPORT. What requests, agents and steps leave unchanged, and what the invariant depends on. -/

namespace Sys2Proof.Machine

theorem State.reset_h : ∀ i : Fin 8, State.reset.h[i] = 0 := by decide

theorem State.reset_blk : ∀ i : Fin 16, State.reset.blk[i] = 0 := by decide

theorem State.reset_numout : ∀ i : Fin 9, State.reset.numout[i] = 0 := by decide

/-- A register write keeps `BUF_BYTES`, and unless it is a write of CMD also STATUS and PENDING. -/
theorem State.writeReg_frame (s : State) (r : Reg) (v) : (s.writeReg r v).bufBytes = s.bufBytes ∧
    (r ≠ .cmd → (s.writeReg r v).status = s.status ∧ (s.writeReg r v).pending = s.pending) := by
  rcases s.writeReg_cases r v with ⟨rfl, h⟩ | ⟨_, h⟩ | ⟨_, h⟩ | ⟨_, h⟩ | ⟨_, _, h⟩ | ⟨_, _, h⟩ | ⟨_, _, h⟩ | h
  · rw [h]; rcases s.launch_cases v with ⟨i, _, h⟩ | ⟨e, _, h⟩ <;> rw [h] <;> exact ⟨rfl, by simp⟩
  all_goals rw [h]; exact ⟨rfl, fun _ => ⟨rfl, rfl⟩⟩

/-- What no request changes. -/
theorem State.request_frame (s : State) (r : BusRequest) : (s.request r).param = s.param ∧ (s.request r).rst = s.rst ∧
    (s.request r).program = s.program ∧ (s.request r).turns = s.turns
    ∧ (s.request r).names = s.names ∧ (s.request r).epoch = s.epoch ∧ (s.request r).numout = s.numout ∧
    (s.request r).numlen = s.numlen := by
  have hw : ∀ off v, (s.busWrite off v).param = s.param ∧ (s.busWrite off v).rst = s.rst ∧
      (s.busWrite off v).program = s.program ∧ (s.busWrite off v).turns = s.turns
      ∧ (s.busWrite off v).names = s.names ∧ (s.busWrite off v).epoch = s.epoch ∧ (s.busWrite off v).numout = s.numout ∧
      (s.busWrite off v).numlen = s.numlen := by
    intro off v
    cases hb : s.status.busy with
    | true => rw [State.busWrite_busy _ _ _ hb]; simp
    | false =>
      rw [State.busWrite_idle _ _ _ hb]
      split
      · simp
      · next r hr =>
        rcases s.writeReg_cases r v with ⟨rfl, h⟩ | ⟨_, h⟩ | ⟨_, h⟩ | ⟨_, h⟩ | ⟨_, _, h⟩ | ⟨_, _, h⟩ | ⟨_, _, h⟩ | h
        · rw [h]; rcases s.launch_cases v with ⟨i, _, h⟩ | ⟨e, _, h⟩ <;> rw [h] <;> simp
        all_goals rw [h]; simp
  rcases s.request_cases r with ⟨p, h⟩ | ⟨p, _, _, _, h⟩ | ⟨v, p, _, _, h⟩
  · rw [h]; simp
  · rw [h]; simp
  · rw [h]; exact hw _ _

/-- While busy a request changes only DROP, the draw counter and the response. -/
theorem State.request_busy (s : State) (r : BusRequest) (hb : s.status.busy = true) : ∃ d p q, s.request r =
    { s with draws := d, resp := p, status := {s.status with drop := q} } := by
  rcases s.request_cases r with ⟨p, h⟩ | ⟨p, _, _, _, h⟩ | ⟨v, p, _, _, h⟩
  · exact ⟨s.draws, p, s.status.drop, h⟩
  · exact ⟨_, p, s.status.drop, h⟩
  · refine ⟨s.draws, p, true, ?_⟩; rw [h, State.busWrite_busy _ _ _ hb]; rfl

/-- A read changes only the draw counter and the response. -/
theorem State.request_read (s : State) (r : BusRequest) (hb : r.access = .read) : ∃ d p, s.request r =
    { s with draws := d, resp := p} := by
  rcases s.request_cases r with ⟨p, h⟩ | ⟨p, _, _, _, h⟩ | ⟨v, p, _, h2, h⟩
  · exact ⟨s.draws, p, h⟩
  · exact ⟨_, p, h⟩
  · rw [hb] at h2; cases h2

/-- No command changes PARAM. -/
theorem exec_param (i s t) (h : exec i s = .next t) : t.param = s.param := by
  rcases exec_cases i s t h with ⟨_, _, _, rfl⟩ | ⟨_, _, _, rfl⟩ | ⟨_, _, _, rfl⟩ | ⟨_, _, rfl⟩ | ⟨_, _, _, rfl⟩ <;>
      simp

/-- While busy the host changes no register but DROP. -/
theorem hostStep_busy (s t : State) (hb : s.status.busy = true) (h : hostStep s = .next t) : 
    ∃ d p q pr n c, t =
      { s with
        draws := d, resp := p, status := { s.status with drop := q }, program := pr, names := n, checks := c } := by
    rcases hostStep_cases _ _ h with ⟨_, rfl⟩ | ⟨e, rest, _, rfl⟩ | ⟨r, dst, rest, _, h⟩ | ⟨dst, rest, p, _, h⟩
    · exact ⟨_, _, _, _, _, _, rfl⟩
    · exact ⟨s.draws, s.resp, s.status.drop, _, s.names, _, rfl⟩
    · obtain ⟨_, rfl⟩ := hostAccess_cases _ _ _ _ h
      obtain ⟨d, p, q, h⟩ := State.request_busy {s with program := rest} r hb
      rw [h]; cases dst
      · exact ⟨d, p, q, _, s.names, _, rfl⟩
      · exact ⟨d, p, q, _, _, _, rfl⟩
    · obtain ⟨_, rfl⟩ := hostAccess_cases _ _ _ _ h
      obtain ⟨d, p', q, h⟩ := State.request_busy {s with program := p} statusRead hb
      rw [h]
      exact ⟨d, p', q, p, _, s.checks, rfl⟩

/-- A host access runs when reset is not asserted. -/
theorem hostAccess_next (s : State) (r d) (h : s.rst = false) : hostAccess s r d =
    .next ((s.request r).bind d (s.request r).respData) := by
  unfold hostAccess; rw [h]; rfl

/-- The host's turn on a bus line is that access. -/
theorem step_bus (s : State) (r d rest) (ht : s.nextTurn = .host) (hp : s.program = .bus r d :: rest) : step s =
    hostAccess { s with turns := s.turns.tail, program := rest } r d := by
  simp [step, ht, agentStep, hostStep, State.takeTurn, hp]

/-- One step of a run. -/
theorem core_run_succ (k : Nat) (s v : State) (h : step s = .next v) : Host.Core.run Sys2Proof.core (k+1) s =
    Host.Core.run Sys2Proof.core k v := by
  have : Sys2Proof.core.step s = .next v := h
  simp only [Host.Core.run, this]

/-- Reset values are about the registers only. -/
theorem State.AtResetValues_of_registers_eq {s t : State} (h : s.AtResetValues) (e1 : t.h = s.h) (e2 : t.blk = s.blk)
    (e3 : t.dbuf = s.dbuf) (e4 : t.len = s.len) (e5 : t.num = s.num) (e6 : t.numout = s.numout)
    (e7 : t.numlen = s.numlen) (e8 : t.status = s.status) (e9 : t.pending = s.pending) : t.AtResetValues := by
  obtain ⟨a,b,c,d,e,f,g,i,j,k,l,m⟩ := h
  constructor <;> simp [*]

/-- The invariant is about the registers and the reset input only. -/
theorem State.Inv_of_registers_eq {s t : State} (h : s.Inv) (e1 : t.h = s.h) (e2 : t.blk = s.blk)
    (e3 : t.dbuf = s.dbuf) (e4 : t.len = s.len) (e5 : t.num = s.num) (e6 : t.numout = s.numout)
    (e7 : t.numlen = s.numlen) (e8 : t.status = s.status) (e9 : t.pending = s.pending) (e10 : t.param = s.param)
    (e11 : t.rst = s.rst) : t.Inv := by
  have eb : t.bufBytes = s.bufBytes := by simp [State.bufBytes, e10]
  obtain ⟨h1,h2,h3,h4,h5,h6,h7,h8,h9,h10⟩ := h
  refine ⟨by rw [e3]; exact h1, by rw [e3, eb]; exact h2, by rw [eb]; exact h3, by rw [e8, e9]; exact h4,
      by rw [e8, e9]; exact h5, by rw [e8]; exact h6, by rw [e8]; exact h7, by rw [e7]; exact h8,
      by rw [e7, e6]; exact h9, ?_⟩
  rw [e11]; intro hr; exact State.AtResetValues_of_registers_eq (h10 hr) e1 e2 e3 e4 e5 e6 e7 e8 e9

/-- The registers reset are at their reset values (10_state R37). -/
theorem State.resetRegisters_atResetValues (s : State) (b) : State.AtResetValues { s.resetRegisters with rst := b } :=
  ⟨State.reset_h, State.reset_blk, fun _ => rfl, rfl, rfl, State.reset_numout, rfl, rfl, rfl, rfl, rfl, rfl⟩

end Sys2Proof.Machine
end

