-- ==== Sys2Proof/Laws/NumCodec.lean ====
section
/-! SUPPORT. The laws of ScriptNumber decode and encode. -/

namespace Sys2Proof.Machine

/-- The number of a byte string, least significant byte first, no sign bit masked. -/
def leValue : List Byte → Nat
  | [] => 0
  | x :: xs => x.toNat + 256 * leValue xs

/-- The masked byte is the byte modulo 128. -/
theorem and_7F_toNat (x : Byte) : (x &&& 0x7F#8).toNat = x.toNat % 128 := by
  revert x; decide

/-- The sign bit is set from 128 on. -/
theorem and_80_ne_zero (x : Byte) : (x &&& 0x80#8 != 0#8) = decide (128 ≤ x.toNat) := by
  revert x; decide

/-- The sign bit alone is 0 or 128. -/
theorem and_80_toNat (x : Byte) : (x &&& 0x80#8).toNat = if x.toNat < 128 then 0 else 128 := by
  revert x; decide

/-- The magnitude by its last byte (41_numcodec R160). -/
theorem scriptMagnitude_append (b : List Byte) (last) : scriptMagnitude (b ++ [last]) =
    leValue b + last.toNat % 128 * 256 ^ b.length := by
  induction b with
  | nil => simp only [List.nil_append, scriptMagnitude, leValue, and_7F_toNat]; simp
  | cons x b ih =>
    have : ∃ y ys, b ++ [last] = y :: ys := by cases b <;> simp
    obtain ⟨y, ys, h⟩ := this
    rw [List.cons_append, h, scriptMagnitude, ← h, ih, leValue, List.length_cons, pow_succ]
    ring

/-- The sign is bit 7 of the last byte (41_numcodec R161). -/
theorem scriptNegative_append (b : List Byte) (last) : scriptNegative (b ++ [last]) = decide (128 ≤ last.toNat) := by
  simp [scriptNegative, and_80_ne_zero]

/-- n bytes hold less than 256^n. -/
theorem leValue_lt (b : List Byte) : leValue b < 256 ^ b.length := by
  induction b with
  | nil => simp [leValue]
  | cons x b ih => simp only [leValue, List.length_cons, pow_succ]; have := x.isLt; omega

/-- The number of a longer byte string. -/
theorem leValue_append (a b : List Byte) : leValue (a ++ b) = leValue a + 256 ^ a.length * leValue b := by
  induction a with
  | nil => simp [leValue]
  | cons x a ih => simp only [List.cons_append, leValue, ih, List.length_cons, pow_succ]; ring

/-- The exact value by its last byte (41_numcodec R160). -/
theorem scriptDecode_append (b last) : scriptDecode (b ++ [last]) = (if last.toNat < 128 then 1 else -1)
    * ((leValue b + last.toNat % 128 * 256 ^ b.length : Nat) : Int) := by
  unfold scriptDecode
  rw [scriptNegative_append, scriptMagnitude_append]
  by_cases h : 128 ≤ last.toNat
  · simp [h]
  · simp [h]

/-- Zero bytes are the number 0. -/
theorem leValue_zeros (n) : leValue (List.replicate n 0#8) = 0 := by
  induction n with
  | zero => rfl
  | succ n ih => simp [List.replicate_succ, leValue, ih]

/-- The magnitude bytes are the magnitude (41_numcodec R165). -/
theorem leValue_magnitudeBytes (fuel mag) (h : mag ≤ fuel) : leValue (magnitudeBytes fuel mag) = mag := by
  induction fuel generalizing mag with
  | zero => simp [magnitudeBytes, leValue]; omega
  | succ n ih =>
    unfold magnitudeBytes
    split
    · simp [leValue, *]
    · simp only [leValue]; rw [ih _ (by omega)]; simp; omega

/-- The magnitude bytes are the minimal ones (41_numcodec R165). -/
theorem magnitudeBytes_length (fuel mag) (h : mag ≤ fuel) (h0 : 0 < mag) :
    256 ^ ((magnitudeBytes fuel mag).length - 1) ≤ mag ∧ mag < 256 ^ (magnitudeBytes fuel mag).length ∧
    0 < (magnitudeBytes fuel mag).length := by
  induction fuel generalizing mag with
  | zero => omega
  | succ n ih =>
    unfold magnitudeBytes
    rw [if_neg (by omega)]
    by_cases hm : mag / 256 = 0
    · rw [hm]
      have : magnitudeBytes n 0 = [] := by cases n <;> simp [magnitudeBytes]
      rw [this]; simp; omega
    · obtain ⟨h1, h2, h3⟩ := ih (mag/256) (by omega) (by omega)
      simp only [List.length_cons, Nat.add_sub_cancel]
      generalize (magnitudeBytes n (mag/256)).length = L at *
      obtain ⟨L, rfl⟩ : ∃ k, L = k + 1 := ⟨L-1, by omega⟩
      simp only [Nat.add_sub_cancel] at *
      refine ⟨?_, ?_, by omega⟩
      · rw [pow_succ]; omega
      · rw [pow_succ]; omega

/-- The sign goes into or after the last byte only (41_numcodec R165). -/
theorem putSign_append (neg : Bool) (b last) : putSign neg (b ++ [last]) = b ++ putSign neg [last] := by
  induction b with
  | nil => rfl
  | cons x b ih =>
    have : ∃ y ys, b ++ [last] = y :: ys := by cases b <;> simp
    obtain ⟨y, ys, h⟩ := this
    rw [List.cons_append, h]; show x :: putSign neg (y :: ys) = _; rw [← h, ih]; rfl

/-- OR-ing the sign bit in adds 128. -/
theorem or_80_toNat (x : Byte) (h : x.toNat < 128) : (x ||| 0x80#8).toNat = x.toNat + 128 := by
  revert x; decide

/-- What an encoding looks like: the magnitude in all but the last byte and the low seven bits of the last, the sign in
its bit 7, minimal (41_numcodec R165). -/
theorem scriptEncode_form (v : Int) (h : v ≠ 0) : ∃ b last, scriptEncode v = b ++ [last] ∧
    leValue b + last.toNat % 128 * 256^b.length = v.natAbs ∧ (128 ≤ last.toNat ↔ v < 0) ∧
    v.natAbs < 128 * 256 ^ b.length ∧ (b ≠ [] → 128 * 256 ^ (b.length - 1) ≤ v.natAbs) ∧
        (last.toNat % 128 = 0 → ∃ b' x, b = b' ++ [x] ∧ 128 ≤ x.toNat) := by
  unfold scriptEncode
  rw [if_neg h]
  have hpos : 0 < v.natAbs := by omega
  have hv := leValue_magnitudeBytes v.natAbs v.natAbs le_rfl
  obtain ⟨h1, h2, h3⟩ := magnitudeBytes_length v.natAbs v.natAbs le_rfl hpos
  generalize magnitudeBytes v.natAbs v.natAbs = e at *
  generalize v.natAbs = m at *
  obtain ⟨b, last, rfl⟩ : ∃ b last, e = b ++ [last] := by
    rcases List.eq_nil_or_concat e with rfl | ⟨b, l, h⟩
    · simp at h3
    · exact ⟨b, l, by simpa using h⟩
  rw [putSign_append]
  rw [leValue_append] at hv
  have hlast : leValue [last] = last.toNat := by simp [leValue]
  rw [hlast] at hv
  simp only [List.length_append, List.length_singleton, Nat.add_sub_cancel] at h1 h2
  have hb := leValue_lt b
  have hl0 : last.toNat ≠ 0 := by
    intro h0; rw [h0] at hv; omega
  have hll := last.isLt
  unfold putSign
  rw [and_80_ne_zero]
  have hPpos : 0 < 256 ^ b.length := by positivity
  by_cases hs : 128 ≤ last.toNat
  · rw [if_pos (by simpa using hs)]
    refine ⟨b ++ [last], if decide (v < 0) = true then 0x80#8 else 0x00#8, by simp, ?_, ?_, ?_, ?_, ?_⟩
    · rw [leValue_append, hlast, hv]; split <;> simp
    · by_cases hn : v < 0 <;> simp [hn]
    · simp only [List.length_append, List.length_singleton, pow_succ]
      have : last.toNat * 256^b.length ≤ 255 * 256^b.length := Nat.mul_le_mul_right _ (by omega)
      rw [Nat.mul_comm] at hv; nlinarith
    · intro _
      simp only [List.length_append, List.length_singleton, Nat.add_sub_cancel]
      have : 128 * 256^b.length ≤ last.toNat * 256^b.length := Nat.mul_le_mul_right _ hs
      rw [Nat.mul_comm] at hv; omega
    · intro _; exact ⟨b, last, rfl, hs⟩
  · rw [if_neg (by simpa using hs)]
    have hlt : last.toNat < 128 := by omega
    have hle : last.toNat * 256^b.length ≤ 127 * 256^b.length := Nat.mul_le_mul_right _ (by omega)
    have hge : 1 * 256^b.length ≤ last.toNat * 256^b.length := Nat.mul_le_mul_right _ (by omega)
    rw [Nat.mul_comm] at hv
    have bound : b ≠ [] → 128 * 256 ^ (b.length - 1) ≤ m := by
      intro hne
      have : 0 < b.length := List.length_pos_iff.mpr hne
      have e : 256 ^ b.length = 256 ^ (b.length - 1) * 256 := by rw [← pow_succ]; congr 1; omega
      omega
    by_cases hn : v < 0
    · rw [if_pos (by simpa using hn)]
      refine ⟨b, last ||| 0x80#8, rfl, ?_, ?_, by omega, bound, ?_⟩
      · rw [or_80_toNat _ hlt]; rw [show (last.toNat + 128) % 128 = last.toNat by omega]; exact hv
      · rw [or_80_toNat _ hlt]; simp [hn]
      · rw [or_80_toNat _ hlt]; omega
    · rw [if_neg (by simpa using hn)]
      refine ⟨b, last, rfl, ?_, ?_, by omega, bound, by omega⟩
      · rw [Nat.mod_eq_of_lt hlt]; exact hv
      · simp [hn, hs]

/-- Byte strings of one length with one number are equal. -/
theorem leValue_inj : ∀ (a b : List Byte), a.length = b.length → leValue a = leValue b → a = b
  | [], [], _, _ => rfl
  | x :: a, y :: b, h, hv => by
    simp only [leValue] at hv
    have := x.isLt; have := y.isLt
    have h1 : x = y := BitVec.eq_of_toNat_eq (by omega)
    have h2 := leValue_inj a b (by simpa using h) (by omega)
    rw [h1, h2]

/-- The range test (41_numcodec R164). -/
theorem inS64_iff (v : Int) : inS64 v = true ↔ -2 ^ 63 ≤ v ∧ v ≤ 2 ^ 63 - 1 := by
  unfold inS64; simp only [Bool.and_eq_true, decide_eq_true_eq]

/-- A value in range is written to NUM (41_numcodec R164, R170). -/
theorem State.finishDecode_inRange (s : State) (v) (h : -2 ^ 63 ≤ v ∧ v ≤ 2 ^ 63 - 1) :
    s.finishDecode v = { s with num := twos64 v, status := s.status.completed, pending := none } := by
  unfold State.finishDecode; rw [if_pos ((inS64_iff v).mpr h)]; rfl

/-- A value out of range is NUM_RANGE (41_numcodec R164, R170). -/
theorem State.finishDecode_outOfRange (s : State) (v) (h : v < -2 ^ 63 ∨ 2 ^ 63 - 1 < v) :
    s.finishDecode v = { s with status := s.status.failed .numRange, pending := none } := by
  unfold State.finishDecode; rw [if_neg (fun e => by rw [inS64_iff] at e; omega)]; rfl

end Sys2Proof.Machine
end

