-- ==== Sys2Proof/Laws/PerInstr.lean ====
section
/-! SUPPORT. Statements made of each command as syntax. -/

/-- A command is well formed, its word has RSV = 0 and its own OP (30_encoding R80, R82). -/
def Sys2Proof.Laws.CommandWord.Statement (i : Sys2Proof.Instr) : Prop :=
  i.wf = true ∧ Sys2Proof.rsvField (Sys2Proof.encode i) = 0#24 ∧
    Sys2Proof.opField (Sys2Proof.encode i) = Sys2Proof.instrOp i

theorem Sys2Proof.Laws.CommandWord.shaInit : Sys2Proof.Laws.CommandWord.Statement .shaInit := by
  refine ⟨rfl, ?_, ?_⟩ <;> decide

theorem Sys2Proof.Laws.CommandWord.shaCompress : Sys2Proof.Laws.CommandWord.Statement .shaCompress := by
  refine ⟨rfl, ?_, ?_⟩ <;> decide

theorem Sys2Proof.Laws.CommandWord.shaHash : Sys2Proof.Laws.CommandWord.Statement .shaHash := by
  refine ⟨rfl, ?_, ?_⟩ <;> decide

theorem Sys2Proof.Laws.CommandWord.numDecode : Sys2Proof.Laws.CommandWord.Statement .numDecode := by
  refine ⟨rfl, ?_, ?_⟩ <;> decide

theorem Sys2Proof.Laws.CommandWord.numEncode : Sys2Proof.Laws.CommandWord.Statement .numEncode := by
  refine ⟨rfl, ?_, ?_⟩ <;> decide
end

