-- ==== Sys2Proof/Laws/Sha256.lean ====
section
/-! SUPPORT. The laws of the SHA-256 functions: byte order, schedule, padding. -/

namespace Sys2Proof.Machine

/-- The schedule grows by one word a step. -/
theorem scheduleMore_length (n) (w : List Word) : (scheduleMore n w).length = w.length + n := by
  induction n generalizing w with
  | zero => rfl
  | succ n ih => simp [scheduleMore, ih, scheduleNext]; omega

/-- A schedule has 64 words (40_sha256 R112). -/
theorem schedule_length (m) : (schedule m).length = 64 := by simp [schedule, scheduleMore_length]

/-- The words a schedule already has stay as they are. -/
theorem scheduleMore_getD_of_lt (n) (w : List Word) (t) (h : t < w.length) : (scheduleMore n w).getD t 0 =
    w.getD t 0 := by
  induction n generalizing w with
  | zero => rfl
  | succ n ih =>
    simp only [scheduleMore]
    rw [ih _ (by simp [scheduleNext]; omega)]
    simp [scheduleNext, List.getD_eq_getElem?_getD, List.getElem?_append_left h]

/-- Every word appended obeys the recurrence (40_sha256 R112). -/
theorem scheduleMore_recurrence (n) (w : List Word) (hw : 16 ≤ w.length) (t) (h1 : w.length ≤ t)
    (h2 : t < w.length + n) :
   (scheduleMore n w).getD t 0 = smallSigma1 ((scheduleMore n w).getD (t-2) 0) + (scheduleMore n w).getD (t-7)
       0 + smallSigma0 ((scheduleMore n w).getD (t-15) 0) + (scheduleMore n w).getD (t-16) 0 := by
  induction n generalizing w with
  | zero => omega
  | succ n ih =>
    simp only [scheduleMore]
    by_cases h : t = w.length
    · subst h
      have hl : (scheduleNext w).length = w.length + 1 := by simp [scheduleNext]
      have P := fun k hk => scheduleMore_getD_of_lt n (scheduleNext w) k hk
      rw [P w.length (by omega), P (w.length-2) (by omega), P (w.length-7) (by omega), P (w.length-15) (by omega),
          P (w.length-16) (by omega)]
      have key : ∀ k, k < w.length → (scheduleNext w).getD k 0 = w.getD k 0 := by
        intro k hk; simp [scheduleNext, List.getD_eq_getElem?_getD, List.getElem?_append_left hk]
      rw [key (w.length-2) (by omega), key (w.length-7) (by omega), key (w.length-15) (by omega), key (w.length-16)
          (by omega)]
      simp [scheduleNext, List.getD_eq_getElem?_getD]
    · exact ih _ (by simp [scheduleNext]; omega) (by simp [scheduleNext]; omega) (by simp [scheduleNext]; omega)

/-- ROTR is the rotation of core Lean (00_scope R8). -/
theorem rotr_eq_rotateRight (x : Word) (n : Nat) (h2 : n < 32) : rotr x n = x.rotateRight n := by
  rw [BitVec.rotateRight_def, Nat.mod_eq_of_lt h2]; rfl

/-- One more element of a list folded. -/
theorem foldl_take_succ {α β} (f : β → α → β) (b : β) (l : List α) (t : Nat) (h : t < l.length) :
    (l.take (t+1)).foldl f b = f ((l.take t).foldl f b) (l[t]) := by
  rw [List.take_add_one, List.foldl_append, List.getElem?_eq_getElem h]; rfl

/-- There are 64 round constants (40_sha256 R103). -/
theorem roundConstants_length : roundConstants.length = 64 := by decide

/-- The zero run brings L + 1 + z to 56 mod 64 (40_sha256 R110). -/
theorem padZeros_spec (L : Nat) : (L + 1 + padZeros L) % 64 = 56 ∧ padZeros L ≤ 63 := by unfold padZeros; omega

/-- The eight bytes of `be64(n)` are the big-endian number n (00_scope R7). -/
theorem be64_value (n : Nat) (h : n < 2^64) : (be64 n).foldl (fun n b => 256 * n + b.toNat) 0 = n := by
  simp only [be64, List.range, List.range.loop, List.map_cons, List.map_nil, List.foldl_cons, List.foldl_nil,
      BitVec.toNat_ofNat]
  norm_num
  omega

/-- The number of a little-endian word (20_memory R55). -/
theorem leWord_toNat (a b c d : Byte) : (leWord a b c d).toNat =
    a.toNat + b.toNat * 2^8 + c.toNat*2^16 + d.toNat*2^24 := by
  have := a.isLt; have := b.isLt; have := c.isLt; have := d.isLt
  unfold leWord
  simp only [BitVec.toNat_append, Nat.shiftLeft_eq]
  rw [← Nat.shiftLeft_eq, ← Nat.shiftLeft_eq, ← Nat.shiftLeft_eq, ← Nat.shiftLeft_add_eq_or_of_lt (by omega),
      ← Nat.shiftLeft_add_eq_or_of_lt (by omega), ← Nat.shiftLeft_add_eq_or_of_lt (by omega)]
  simp only [Nat.shiftLeft_eq]
  omega

/-- The number of a big-endian word (40_sha256 R111). -/
theorem beWord_toNat (a b c d : Byte) : (beWord a b c d).toNat =
    a.toNat * 2^24 + b.toNat * 2^16 + c.toNat*2^8 + d.toNat := by
  have := leWord_toNat d c b a
  have e : beWord a b c d = leWord d c b a := rfl
  rw [e, this]; omega

end Sys2Proof.Machine
end

