-- ==== Sys2Proof/Tests/Slice0.lean ====
section
/-! SUPPORT. The model's own tests. Expected results come from the spec's vectors (95_test_vectors, by their ids), from
its encoding and pad tables, or by hand from a rule; and for each statement with hypotheses a witness that meets them. -/

namespace Sys2Proof.Tests

open Sys2Proof Sys2Proof.Machine Sys2Proof.Claims

/-! ### States -/

/-- The next state of an outcome. -/
def out : Host.Outcome State Fault Refusal → Option State
  | .next t => some t
  | .fault _ | .refused _ => none

/-- After reset, with a byte string in DBUF from index 0 and its length in LEN. -/
def withBytes (m : List Byte) : State :=
  { State.reset with dbuf := (List.range m.length).zip m, len := BitVec.ofNat 16 m.length }

/-- After reset, with LEN. -/
def withLen (n : Nat) : State := { State.reset with len := BitVec.ofNat 16 n }

/-- After reset, with the largest buffer. -/
def bigBuffer : State := { State.reset with param := 4096 }

/-- After reset, with a number in NUM. -/
def withNum (x : DWord) : State := { State.reset with num := x }

/-- After the launch of SHA_INIT. -/
def launched : State := State.reset.busWrite 0#13 0x00000001#32

/-- After reset, with a host program. -/
def withProgram (p : List HostLine) : State := { State.reset with program := p }

/-- The message "abc". -/
def abc : List Byte := [0x61, 0x62, 0x63]

/-- A request of one word. -/
def word (off : Nat) (a : Access) : BusRequest := ⟨BitVec.ofNat 13 off, .word, a⟩

/-! ### Decoding: the words bit by bit (30_encoding R80, R82, opcode table) -/

theorem test_decode_shaInit : decode 0b00000000000000000000000000000001#32 = .ok .shaInit := by rfl
theorem test_decode_shaCompress : decode 0b00000000000000000000000000000010#32 = .ok .shaCompress := by rfl
theorem test_decode_shaHash : decode 0b00000000000000000000000000000011#32 = .ok .shaHash := by rfl
theorem test_decode_numDecode : decode 0b00000000000000000000000000010000#32 = .ok .numDecode := by rfl
theorem test_decode_numEncode : decode 0b00000000000000000000000000010001#32 = .ok .numEncode := by rfl

/-- V-S1, V-S2, V-S3, and the words next to the table's. -/
theorem test_decode_illegal :
    (decode 0x00000000#32 = .error .unassignedOp ∧ decode 0x00000004#32 = .error .unassignedOp) ∧
    (decode 0x0000000F#32 = .error .unassignedOp ∧ decode 0x00000012#32 = .error .unassignedOp) ∧
    (decode 0x00000101#32 = .error .reservedBitsSet ∧ decode 0x80000011#32 = .error .reservedBitsSet) := by
  refine ⟨⟨?_, ?_⟩, ⟨?_, ?_⟩, ?_, ?_⟩ <;> rfl

theorem test_decodeTableWord : decodeTableWord 32 0x11 = some .numEncode ∧ decodeTableWord 32 0x101 = none ∧
    decodeTableWord 64 0x11 = none := by decide

/-! ### WellFormed refuses -/

/-- DBUF has 1024 word offsets (10_state R22). -/
theorem smoke_reg : Reg.wf (.dbuf 1024) = false ∧ Reg.wf (.dbuf 1023) = true := by decide
theorem smoke_wr : AsmLine.wf (.wr (.dbuf 1024) 0) = false ∧ AsmLine.wf (.rd (.dbuf 1024) "x") = false := by decide
theorem smoke_expect : AsmLine.wf (.expect (.reg (.dbuf 1024) 0)) = false := by decide
theorem smoke_wrmsg : AsmLine.wf (.wrmsg (List.replicate 4097 0)) = false := by decide +kernel
theorem smoke_wrblk : AsmLine.wf (.wrblk (List.replicate 63 0)) = false := by decide
theorem smoke_wrnum : AsmLine.wf (.wrnum (2 ^ 63)) = false ∧ AsmLine.wf (.wrnum (-2 ^ 63 - 1)) = false ∧
    AsmLine.wf (.wrnum (-2 ^ 63)) = true := by decide

/-- P4 of 95_test_vectors writes H0 without a POLL after its CMD; P1 does not (30_encoding R95). -/
theorem smoke_program :
    programWf [.cmd .shaInit, .wr (.h 0) 0x12345678, .poll, .rd (.h 0) "h"] = false ∧
    programWf [.wr (.dbuf 0) 0x00636261, .wr .len 3, .cmd .shaHash, .poll, .rd (.h 0) "d0"] = true := by decide

/-- 00_scope R5. -/
theorem smoke_bufBytes : ¬ Config.ValidBufBytes 519 ∧ ¬ Config.ValidBufBytes 516 ∧ ¬ Config.ValidBufBytes 522 ∧
    ¬ Config.ValidBufBytes 4100 ∧ Config.ValidBufBytes 520 ∧ Config.ValidBufBytes 4096 := by decide

/-- A buffer out of order, or with an index twice, is not canonical. -/
theorem smoke_memory : Memory.wf [(4, 0), (1, 0)] = false ∧ Memory.wf [(4, 0), (4, 1)] = false := by decide

/-! ### SHA-256 functions -/

/-- V-F1 to V-F10. -/
theorem test_logicalFunctions :
    (bigSigma0 0x6a09e667 = 0xce20b47e ∧ bigSigma1 0x510e527f = 0x3587272b) ∧
    (ch 0x510e527f 0x9b05688c 0x1f83d9ab = 0x1f85c98c ∧ maj 0x6a09e667 0xbb67ae85 0x3c6ef372 = 0x3a6fe667) ∧
    (smallSigma0 0x80000000 = 0x11002000 ∧ smallSigma1 0x80000000 = 0x00205000) ∧
    (smallSigma0 1 = 0x02004000 ∧ smallSigma1 1 = 0x0000a000) ∧
    bigSigma0 1 = 0x40080400 ∧ bigSigma1 1 = 0x04200080 := by decide

/-- The schedule of V-P2, its words 16 to 19 and 63. -/
theorem test_schedule :
    ([16, 17, 18, 19, 63].map fun t => (schedule (block (pad abc) 0)).getD t 0) =
      [0x61626380, 0x000f0000, 0x7da86405, 0x600003c6, 0x12b1edeb] := by decide +kernel

/-- 95_test_vectors 2.5, round 0. -/
theorem test_round :
    roundStep (roundStart initialHash) (0x428a2f98, 0x61626380) =
      ⟨0x5d6aebcd, 0x6a09e667, 0xbb67ae85, 0x3c6ef372, 0xfa2a4622, 0x510e527f, 0x9b05688c, 0x1f83d9ab⟩ := by
  decide +kernel

/-- The z and N table (40_sha256 R134). -/
theorem test_padTable :
    ([0, 3, 55, 56, 63, 64, 119, 120].map fun n => (padZeros n, blockCount n)) =
      [(55, 1), (52, 1), (0, 1), (63, 2), (56, 2), (55, 2), (0, 2), (63, 3)] := by decide

/-- V-P2. -/
theorem test_padBlock :
    block (pad abc) 0 = #v[0x61626380, 0, 0, 0, 0, 0, 0, 0, 0, 0, 0, 0, 0, 0, 0, 0x18] := by decide +kernel

/-- V-H3, a message of two blocks. -/
theorem test_twoBlocks :
    sha256State ((List.range 14).flatMap fun i => (List.range 4).map fun k => BitVec.ofNat 8 (0x61 + i + k)) =
      #v[0x248d6a61, 0xd20638b8, 0xe5c02693, 0x0c3e6039, 0xa33ce459, 0x64ff2167, 0xf6ecedd4, 0x19db06c1] := by
  decide +kernel

/-- 40_sha256 R133 on V-H2. -/
theorem test_digest : (digest #v[0xba7816bf, 0x8f01cfea, 0, 0, 0, 0, 0, 0xf20015ad]).take 5 =
    [0xba, 0x78, 0x16, 0xbf, 0x8f] := by decide

/-! ### Commands, one step each -/

/-- V-C1. -/
theorem test_shaInit : (out (step (State.reset.withFetchWord 32 0x01))).map (fun t => (t.h, t.status)) =
    some (#v[0x6a09e667, 0xbb67ae85, 0x3c6ef372, 0xa54ff53a, 0x510e527f, 0x9b05688c, 0x1f83d9ab, 0x5be0cd19],
      ⟨false, false, false, .none⟩) := by decide +kernel

/-- V-C3. -/
theorem test_shaCompress_zero : (out (step (State.reset.withFetchWord 32 0x02))).map (·.h) =
    some #v[0x7ca51614, 0x425c3ba8, 0xce54dd2f, 0xc2020ae7, 0xb6e574d1, 0x98136d0f, 0xae7e26cc, 0xbf0be7a6] := by
  decide +kernel

/-- V-C8. -/
theorem test_shaCompress_ones :
    (out (exec .shaCompress { State.reset with
      h := Vector.replicate 8 0xffffffff, blk := Vector.replicate 16 0xffffffff })).map (·.h) =
    some #v[0x0598127a, 0xaf11706e, 0x77401fff, 0xd730c549, 0x0b84c867, 0xa98c6ca3, 0xd7f3c0f9, 0x06a78b79] := by
  decide +kernel

/-- V-H15: "abc" with another H before. -/
theorem test_shaHash_abc :
    (out (exec .shaHash { withBytes abc with h := Vector.replicate 8 0xffffffff })).map (·.h) =
    some #v[0xba7816bf, 0x8f01cfea, 0x414140de, 0x5dae2223, 0xb00361a3, 0x96177a9c, 0xb410ff61, 0xf20015ad] := by
  decide +kernel

/-- V-H8. -/
theorem test_shaHash_lenRange :
    (out (exec .shaHash (withLen 521))).map (fun t => (t.h, t.status)) =
    some (State.reset.h, ⟨false, true, false, .lenRange⟩) := by decide +kernel

/-- V-D16. -/
theorem test_numDecode_least :
    (out (exec .numDecode (withBytes [0, 0, 0, 0, 0, 0, 0, 0x80, 0x80]))).map (fun t => (t.num, t.status)) =
    some (0x8000000000000000, ⟨false, false, false, .none⟩) := by decide +kernel

/-- V-D18. -/
theorem test_numDecode_range :
    (out (exec .numDecode { withBytes [0, 0, 0, 0, 0, 0, 0, 0x80, 0x00] with num := 7 })).map
      (fun t => (t.num, t.readReg .status)) = some (7, 0x32) := by decide +kernel

/-- V-E15. -/
theorem test_numEncode_minus1000 :
    (out (exec .numEncode (withNum 0xfffffffffffffc18))).map (fun t => (t.numlen, t.readReg .numout0)) =
    some (2, 0x000083e8) := by decide +kernel

/-- V-E25. -/
theorem test_numEncode_least :
    (out (exec .numEncode (withNum 0x8000000000000000))).map
      (fun t => (t.numlen, t.readReg .numout0, t.readReg .numout1, t.readReg .numout2)) =
    some (9, 0x00000000, 0x80000000, 0x00000080) := by decide +kernel

/-! ### The codec: V-E6, V-E8, V-E18 and V-D5, V-D9, V-D27 -/

theorem test_encode : scriptEncode 128 = [0x80, 0x00] ∧ scriptEncode (-128) = [0x80, 0x80] ∧
    scriptEncode (-32768) = [0x00, 0x80, 0x80] := by decide +kernel

theorem test_decode : scriptDecode [0x00, 0x80] = 0 ∧ scriptDecode [0x01, 0x80] = -1 ∧
    scriptDecode (List.replicate 16 0 ++ [1]) = 2 ^ 128 := by decide +kernel

/-! ### The port -/

/-- V-S1: an illegal word. -/
theorem test_launch_illegal : (State.reset.busWrite 0#13 0).readReg .status = 0x12 ∧
    (State.reset.busWrite 0#13 0).pending = none := by decide

/-- V-S4: ERR is cleared at launch. -/
theorem test_launch_afterError :
    ((State.reset.busWrite 0#13 0).busWrite 0#13 1).readReg .status = 0x01 := by decide

/-- V-S5: write first, then completion. -/
theorem test_drop : (out (coreStep (launched.busWrite 0x020#13 0x12345678))).map
    (fun t => (t.readReg .status, t.h[0])) = some (0x04, 0x6a09e667) := by decide +kernel

/-- P4 (a): completion first. -/
theorem test_noDrop : ((out (coreStep launched)).map (·.busWrite 0x020#13 0x12345678)).map
    (fun t => (t.readReg .status, t.h[0], t.h[1])) = some (0x00, 0x12345678, 0xbb67ae85) := by decide +kernel

/-- V-S10. -/
theorem test_writeStatus : State.reset.busWrite 0x004#13 0xFFFFFFFF = State.reset := by decide

/-- V-S11 and V-S12. -/
theorem test_illegalRequests :
    State.reset.request ⟨0x1000#13, .byte, .write 1⟩ = { State.reset with resp := some ⟨none, true⟩ } ∧
    State.reset.request ⟨0x0002#13, .word, .read⟩ = { State.reset with resp := some ⟨some 0, true⟩ } := by decide

/-- V-S13, V-S14, V-S15. -/
theorem test_reads : (State.reset.busWrite 0x008#13 0x00010003).len = 3 ∧
    (State.reset.busRead 0x018#13).1 = 0x208 ∧ (State.reset.busRead 0x1208#13).1 = 0 := by decide

/-- The bytes of `WR DBUF0, 0x00636261` of P1. -/
theorem test_dbuf : (State.reset.busWrite 0x1000#13 0x00636261).dbuf = [(0, 0x61), (1, 0x62), (2, 0x63), (3, 0)] := by
  decide

/-- The three lines of P3 that write +2^63. -/
theorem test_wrmsg : (AsmLine.wrmsg [0, 0, 0, 0, 0, 0, 0, 0x80, 0]).expand =
    [wrLine (.dbuf 0) 0, wrLine (.dbuf 1) 0x80000000, wrLine (.dbuf 2) 0, wrLine .len 9] := by decide

/-- V-S17: reset asserted over a pending command, then released. -/
theorem test_reset : releaseResetStep (assertResetStep launched) = { State.reset with epoch := 2 } := by decide

/-! ### Witnesses: inputs that meet the hypotheses of each statement, at the ends of each range -/

theorem witness_EveryOtherWordIsIllegal :
    State.reset.status.busy = false ∧
    [0x00000000#32, 0x00000004#32, 0x00000012#32, 0x00000101#32, 0xFFFFFFFF#32].Forall fun c =>
      c.toNat ∉ [0x01, 0x02, 0x03, 0x10, 0x11] := by decide

/-- Both sides of the equivalence, at the ends of each range of offsets. -/
theorem witness_RegisterMapMatchesOffsets :
    (regAt 520 0x000#13 = some .cmd ∧ regAt 520 0x018#13 = some .param ∧ regAt 520 0x01C#13 = none) ∧
    (regAt 520 0x020#13 = some (.h 0) ∧ regAt 520 0x03C#13 = some (.h 7)) ∧
    (regAt 520 0x040#13 = some (.blk 0) ∧ regAt 520 0x07C#13 = some (.blk 15)) ∧
    (regAt 520 0x088#13 = some .numout2 ∧ regAt 520 0x08C#13 = none ∧ regAt 520 0x0FFC#13 = none) ∧
    (regAt 520 0x1000#13 = some (.dbuf 0) ∧ regAt 520 0x1204#13 = some (.dbuf 129) ∧ regAt 520 0x1208#13 = none) ∧
    regAt 4096 0x1FFC#13 = some (.dbuf 1023) := by decide +kernel

theorem witness_IllegalRequestOnlyGetsErrorResponse :
    ([0x0001#13, 0x0002#13, 0x1FFF#13].Forall fun off =>
      ∀ a ∈ [Access.read, .write 5], BusRequest.legal ⟨off, .word, a⟩ = false) ∧
    (∀ sz ∈ [AccessSize.byte, .half], ∀ a ∈ [Access.read, .write 5], BusRequest.legal ⟨0x1000#13, sz, a⟩ = false) ∧
    BusRequest.legal ⟨0x1FFC#13, .word, .read⟩ = true := by decide +kernel

/-- Each clause's offset is the one the model reads that register at. -/
theorem witness_IdleReadReturnsRegister :
    State.reset.status.busy = false ∧
    ([0x000, 0x008, 0x00C, 0x010, 0x014, 0x020, 0x03C, 0x040, 0x07C].map fun o => regAt 520 (BitVec.ofNat 13 o)) =
      [some .cmd, some .len, some .numlen, some .numLo, some .numHi, some (.h 0), some (.h 7), some (.blk 0),
        some (.blk 15)] := by decide

theorem witness_ParamIsConstantBufBytes :
    State.reset.status.busy = false ∧ ∃ t, step State.reset = .next t := ⟨rfl, _, rfl⟩

/-- A busy state, and offsets of every clause. -/
theorem witness_BusyReadIsUnspecifiedBesidesStatus :
    (launched.status.busy = true ∧ State.reset.status.busy = false) ∧
    ([0x01C#13, 0x08C#13, 0x1208#13, 0x1FFC#13].Forall fun o => o.toNat % 4 = 0 ∧ regAt launched.bufBytes o = none) ∧
    ([(0x008#13, Reg.len), (0x00C#13, .numlen), (0x010#13, .numLo), (0x014#13, .numHi), (0x020#13, .h 0),
        (0x07C#13, .blk 15), (0x080#13, .numout0), (0x088#13, .numout2), (0x1000#13, .dbuf 0), (0x1204#13, .dbuf 129)].Forall
      fun p =>
      p.1.toNat % 4 = 0 ∧ regAt launched.bufBytes p.1 = some p.2 ∧ p.2 ≠ .cmd ∧ p.2 ≠ .status ∧ p.2 ≠ .param) := by
  decide +kernel

/-- The first and last offsets of each reserved range, with the smallest and the largest buffer (which leaves none above
it), and each word with reserved bits. -/
theorem witness_ReservedSpaceReadsZeroIgnoresWrites :
    (State.reset.status.busy = false ∧ bigBuffer.bufBytes = 4096) ∧
    ([0x01C#13, 0x08C#13, 0x0FFC#13, 0x1208#13, 0x1FFC#13].Forall fun o => o.toNat % 4 = 0 ∧
      (o.toNat = 0x01C ∨ (0x08C ≤ o.toNat ∧ o.toNat ≤ 0x0FFC) ∨ 0x1000 + State.reset.bufBytes ≤ o.toNat)) ∧
    ([0x008#13, 0x00C#13, 0x004#13, 0x018#13, 0x088#13].Forall fun o => o.toNat % 4 = 0 ∧ regAt 520 o ≠ none) := by
  decide +kernel

theorem witness_WrittenRegisterReadsBack :
    State.reset.status.busy = false ∧
    [0x010#13, 0x014#13, 0x020#13, 0x07C#13, 0x1000#13, 0x1204#13].Forall fun o => o.toNat % 4 = 0 ∧
      (o.toNat = 0x010 ∨ o.toNat = 0x014 ∨ (0x020 ≤ o.toNat ∧ o.toNat < 0x080) ∨
        (0x1000 ≤ o.toNat ∧ o.toNat < 0x1000 + State.reset.bufBytes)) := by decide +kernel

theorem witness_WrittenRegisterReadsBack_len : (0x008#13).toNat % 4 = 0 ∧ (0x008#13).toNat = 0x008 := by decide

theorem witness_WriteLeavesOtherWordsAlone :
    State.reset.status.busy = false ∧
    [(0x020#13, 0x024#13), (0x008#13, 0x004#13), (0x1204#13, 0x1200#13), (0x1FFC#13, 0x000#13)].Forall fun o =>
      o.1.toNat % 4 = 0 ∧ o.2.toNat % 4 = 0 ∧ o.1.toNat ≠ 0x000 ∧ o.1 ≠ o.2 := by decide +kernel

/-- The first and the last byte of the buffer, the last but one word for `k'`, and a written byte to read. -/
theorem witness_BufferWordPacksLittleEndian :
    (withBytes abc).status.busy = false ∧ Config.ValidBufBytes (withBytes abc).bufBytes ∧
    (0 < (withBytes abc).bufBytes ∧ 519 < (withBytes abc).bufBytes ∧ 515 / 4 ≠ 519 / 4) ∧
    Memory.read (withBytes abc).dbuf 0 = some 0x61 ∧ Memory.read (withBytes abc).dbuf 2 = some 0x63 := by decide

theorem witness_EncodeOutputPacksLittleEndian : State.reset.status.busy = false := by decide

theorem witness_BusyWriteIsDropped :
    (launched.status.busy = true ∧ State.reset.status.busy = false) ∧
    ((0x1204#13).toNat % 4 = 0 ∧ (0x1204#13).toNat ≠ 0x000) ∧
    ∀ i, ∃ t, exec i State.reset = .next t := by
  refine ⟨by decide, by decide, fun i => ?_⟩
  cases i <;> exact ⟨_, rfl⟩

theorem witness_LaunchSetsBusyAndPending : State.reset.status.busy = false ∧ ∀ i, (4#32 : Word) ≠ encode i :=
  ⟨rfl, fun i => by cases i <;> decide⟩

/-- The core's turn, listed and not. -/
theorem witness_CoreStepRunsThePendingCommand :
    (launched.nextTurn = .core ∧ { launched with turns := [.core, .host] }.nextTurn = .core) ∧
    launched.status.busy = true ∧ launched.pending = some 1#32 ∧ decode 1#32 = .ok .shaInit := ⟨by decide, rfl, rfl, rfl⟩

theorem witness_FetchedWordRunsNext : [0x01, 0x02, 0x03, 0x10, 0x11].map (decodeTableWord 32) =
    [some .shaInit, some .shaCompress, some .shaHash, some .numDecode, some .numEncode] := by decide

theorem witness_IdleCoreDoesNothing :
    { State.reset with turns := [.core] }.nextTurn = .core ∧ State.reset.status.busy = false := by decide

/-- Every command, one of each pair of ends: without error, LEN_RANGE, NUM_RANGE. -/
theorem witness_ErrorsOfEachCommand :
    (∀ i, ∃ t, exec i State.reset = .next t ∧ t.status.err = false) ∧
    (∃ t, exec .shaHash (withLen 521) = .next t ∧ t.status.code = .lenRange) ∧
    (∃ t, exec .numDecode (withLen 521) = .next t ∧ t.status.code = .lenRange) ∧
    ∃ t, exec .numDecode (withBytes [0, 0, 0, 0, 0, 0, 0, 0x80, 0x00]) = .next t ∧ t.status.code = .numRange := by
  refine ⟨fun i => ?_, ⟨_, rfl, rfl⟩, ⟨_, rfl, rfl⟩, ⟨_, rfl, by decide +kernel⟩⟩
  cases i <;> exact ⟨_, rfl, by decide +kernel⟩

theorem witness_LenRangeComesFirst : (withLen 521).bufBytes < (withLen 521).len.toNat ∧
    (withLen 65535).bufBytes < (withLen 65535).len.toNat := by decide

theorem witness_FailedCommandChangesOnlyStatus :
    ∃ t, exec .numDecode (withLen 521) = .next t ∧ t.status.err = true := ⟨_, rfl, rfl⟩

theorem witness_CommandsLeaveOperandsAlone : ∀ i, ∃ t, exec i (withBytes abc) = .next t :=
  fun i => by cases i <;> exact ⟨_, rfl⟩

theorem witness_CommandsWriteOnlyTheirResult : ∀ i, ∃ t, exec i (withBytes abc) = .next t :=
  fun i => by cases i <;> exact ⟨_, rfl⟩

/-- Busy, and the host writes H0. -/
theorem witness_OperandsAreFrozenWhileBusy :
    ∃ s t : State, s.status.busy = true ∧ s.nextTurn = .host ∧ s.program = [wrLine (.h 0) 5] ∧ step s = .next t :=
  ⟨{ launched with turns := [.host], program := [wrLine (.h 0) 5] }, _, rfl, rfl, rfl, rfl⟩

/-- BUSY set by the host's launch. -/
theorem witness_OnlyLaunchAndCompletionMoveBusy_set :
    ∃ t, step (withProgram [wrLine .cmd 1]) = .next t ∧ (withProgram [wrLine .cmd 1]).status.busy = false ∧
      t.status.busy = true := ⟨_, rfl, rfl, by decide⟩

/-- BUSY cleared by the core, by an assertion, and by a release in a state that no run reaches. -/
theorem witness_OnlyLaunchAndCompletionMoveBusy_cleared :
    ∀ s ∈ [launched, { launched with turns := [.assertReset] }, { launched with turns := [.releaseReset], rst := true }],
      s.status.busy = true ∧ ∃ t, step s = .next t ∧ t.status.busy = false := by
  intro s hs
  fin_cases hs <;> exact ⟨rfl, _, rfl, rfl⟩

theorem witness_ShaInitLoadsInitialHash :
    ∃ t u, exec .shaInit State.reset = .next t ∧ exec .shaInit t = .next u := ⟨_, _, rfl, rfl⟩

theorem witness_PaddingFillsWholeBlocks : 8 * ([] : List Byte).length < 2 ^ 64 ∧ 8 * abc.length < 2 ^ 64 := by decide

/-- The empty operand, "abc", and a full buffer. -/
theorem witness_ShaHashHashesItsOperand :
    ((withLen 521).bufBytes < (withLen 521).len.toNat) ∧
    ((withBytes []).len.toNat ≤ (withBytes []).bufBytes ∧ OperandIs (withBytes []) []) ∧
    ((withBytes abc).len.toNat ≤ (withBytes abc).bufBytes ∧ OperandIs (withBytes abc) abc) ∧
    ((withLen 520).len.toNat ≤ (withLen 520).bufBytes ∧ OperandUnwritten (withLen 520)) := by
  refine ⟨by decide, ⟨by decide, ?_⟩, ⟨by decide, ?_⟩, by decide, 0, by decide, rfl⟩ <;> unfold OperandIs <;> decide

/-- Two states that differ in H and beyond LEN. -/
theorem witness_ShaHashReadsOnlyItsOperand :
    ∃ s s' : State, s.len.toNat ≤ s.bufBytes ∧ s'.len.toNat ≤ s'.bufBytes ∧ s'.len = s.len ∧ OperandIs s abc ∧
      (∀ k, k < s.len.toNat → Memory.read s'.dbuf k = Memory.read s.dbuf k) ∧ s.h ≠ s'.h ∧ s.dbuf ≠ s'.dbuf :=
  ⟨withBytes abc, { withBytes (abc ++ [9]) with len := 3, h := initialHash }, by decide, by decide, rfl,
    witness_ShaHashHashesItsOperand.2.2.1.2, by decide, by decide, by decide⟩

theorem witness_BlockByBlockEqualsWholeHash :
    State.reset.status.busy = false ∧ 8 * abc.length < 2 ^ 64 ∧ (withBytes abc).len.toNat ≤ (withBytes abc).bufBytes ∧
      OperandIs (withBytes abc) abc := ⟨rfl, by decide, witness_ShaHashHashesItsOperand.2.2.1⟩

theorem witness_NegativeZeroDecodesToZero : (0x80#8 : Byte) &&& 0x7F#8 = 0 ∧ (0x00#8 : Byte) &&& 0x7F#8 = 0 := by decide

/-- The ends of `s64`, and zero. -/
theorem witness_EncodeThenDecodeReturnsValue : ∀ v ∈ [-2 ^ 63, -1, 0, (2 : Int) ^ 63 - 1],
    -2 ^ 63 ≤ v ∧ v ≤ 2 ^ 63 - 1 := by decide

theorem witness_EncodingLengthIsLeast :
    (∀ v ∈ [-2 ^ 63, -1, 1, (2 : Int) ^ 63 - 1], -2 ^ 63 ≤ v ∧ v ≤ 2 ^ 63 - 1 ∧ v ≠ 0) ∧
    ((127 : Int).natAbs < 2 ^ (8 * 1 - 1) ∧ (-2 ^ 63 : Int).natAbs < 2 ^ (8 * 9 - 1)) := by decide

/-- V-E6 and V-E8 end in 0x00 and 0x80; an in-range byte string, shortest and not. -/
theorem witness_EncodingIsShortest :
    (inS64 (scriptDecode [0x01]) = true ∧ inS64 (scriptDecode [0x01, 0x00]) = true) ∧
    scriptEncode 128 = [0x80] ++ [0x00] ∧ scriptEncode (-128) = [0x80] ++ [0x80] := by decide +kernel

theorem witness_TwosComplementRoundTrip : ∀ v ∈ [-2 ^ 63, 0, (2 : Int) ^ 63 - 1], -2 ^ 63 ≤ v ∧ v ≤ 2 ^ 63 - 1 := by
  decide

/-- An operand for each clause: both ends in range, both just outside, and one not all written. -/
theorem witness_NumDecodeWritesExactValue :
    ((withLen 521).bufBytes < (withLen 521).len.toNat) ∧
    (∀ b ∈ [[], [0, 0, 0, 0, 0, 0, 0, 0x80, 0x80], [0xff, 0xff, 0xff, 0xff, 0xff, 0xff, 0xff, 0x7f]],
      OperandIs (withBytes b) b ∧ (withBytes b).len.toNat ≤ (withBytes b).bufBytes ∧
        -2 ^ 63 ≤ scriptDecode b ∧ scriptDecode b ≤ 2 ^ 63 - 1) ∧
    (∀ b ∈ [[0, 0, 0, 0, 0, 0, 0, 0x80, 0x00], [1, 0, 0, 0, 0, 0, 0, 0x80, 0x80]],
      OperandIs (withBytes b) b ∧ (withBytes b).len.toNat ≤ (withBytes b).bufBytes ∧
        (scriptDecode b < -2 ^ 63 ∨ 2 ^ 63 - 1 < scriptDecode b)) ∧
    ((withLen 520).len.toNat ≤ (withLen 520).bufBytes ∧ OperandUnwritten (withLen 520)) := by
  refine ⟨by decide, ?_, ?_, witness_ShaHashHashesItsOperand.2.2.2⟩ <;> unfold OperandIs <;> decide +kernel

/-- V-E25 and back. -/
theorem witness_CodecRoundTripThroughMachine :
    ∃ t u : State, exec .numEncode (withNum 0x8000000000000000) = .next t ∧ Config.ValidBufBytes u.bufBytes ∧
      u.len.toNat = t.numlen.toNat ∧
      (∀ k : Fin 9, k.val < t.numlen.toNat → Memory.read u.dbuf k = some t.numout[k]) :=
  ⟨_, withBytes [0, 0, 0, 0, 0, 0, 0, 0x80, 0x80], rfl, by decide, by decide +kernel, by decide +kernel⟩

theorem witness_ResetAbandonsPendingCommand :
    { launched with turns := [.assertReset, .releaseReset] }.turns = .assertReset :: .releaseReset :: [] := rfl

theorem witness_RequestDuringResetStops :
    { withProgram [rdLine .status "x"] with rst := true }.rst = true ∧
    { withProgram [rdLine .status "x"] with rst := true }.accessNext = true ∧
    { withProgram [.poll "s"] with rst := true }.accessNext = true := by decide

/-- A write and a read of the first and the last register. -/
theorem witness_HostLinesAccessTheirRegister :
    (∀ l ∈ [wrLine .cmd 1, wrLine (.dbuf 129) 5, rdLine .cmd "x", rdLine (.dbuf 129) "x"],
      (withProgram [l]).nextTurn = .host ∧ (withProgram [l]).rst = false ∧ (withProgram [l]).status.busy = false ∧
        Config.ValidBufBytes (withProgram [l]).bufBytes) ∧
    ∀ i, Reg.dbuf 129 = .dbuf i → 4 * i < State.reset.bufBytes :=
  ⟨by decide, fun i h => by cases h; decide⟩

/-- Idle and busy. -/
theorem witness_PollRepeatsWhileBusy :
    ((withProgram [.poll "s"]).nextTurn = .host ∧ (withProgram [.poll "s"]).rst = false) ∧
    { launched with program := [.poll "s"], turns := [.host] }.nextTurn = .host ∧
    { launched with program := [.poll "s"], turns := [.host] }.rst = false ∧
    { launched with program := [.poll "s"], turns := [.host] }.status.busy = true := by decide

/-- A busy state with bytes in DBUF, and the host's turn: it meets the invariant and steps. -/
def hashing : State := { withBytes abc with
  status := ⟨true, false, true, .none⟩, pending := some 3#32, turns := [.host, .releaseReset],
  program := [wrLine (.dbuf 0) 7] }

theorem hashing_inv : hashing.Inv where
  dbufCanonical := by decide
  dbufInside := by
    intro k b h
    have hb : hashing.bufBytes = 520 := rfl
    have hd : hashing.dbuf = [(0, 0x61), (1, 0x62), (2, 0x63)] := rfl
    rw [hd] at h
    simp only [Memory.read] at h
    rw [hb]
    split at h
    · omega
    split at h
    · omega
    split at h
    · omega
    · cases h
  bufBytesValid := by decide
  pendingValid := fun _ => ⟨.shaHash, rfl⟩
  pendingNone := fun h => by cases h
  errHasCode := by decide
  noErrWhileBusy := fun _ => rfl
  numlenBound := by decide
  numoutTail := by decide
  resetHolds := fun h => by cases h

theorem witness_EveryStepKeepsInvariant : hashing.Inv ∧ ∃ t, step hashing = .next t := ⟨hashing_inv, _, rfl⟩

/-- A busy state, and one with reset asserted in which the host has no access to make. -/
theorem witness_SafeStateNeverStops : hashing.Safe ∧ ∃ s : State, s.rst = true ∧ s.Safe :=
  ⟨⟨hashing_inv, fun h => by cases h⟩, assertResetStep launched, rfl,
    { inv :=
        { dbufCanonical := by decide
          dbufInside := fun k b h => by cases h
          bufBytesValid := by decide
          pendingValid := fun h => by cases h
          pendingNone := fun _ => rfl
          errHasCode := by decide
          noErrWhileBusy := fun _ => rfl
          numlenBound := by decide
          numoutTail := by decide
          resetHolds := fun _ => State.resetRegisters_atResetValues launched true }
      platform := fun _ => rfl }⟩

theorem witness_PendingCommandCompletesOnLaunchOperands :
    hashing.Inv ∧ hashing.status.busy = true ∧ Turn.assertReset ∉ hashing.turns := ⟨hashing_inv, rfl, by decide⟩

end Sys2Proof.Tests
end

/-! PARAM is a constant (10_state R33), and the values after reset (R37). -/

namespace Sys2Proof.Machine

/-- The offset of PARAM, whatever the size of the buffer (10_state R22). -/
@[simp] theorem regAt_paramOffset (n : Nat) : regAt n 0x018#13 = some .param := rfl

/-- PARAM is one of the registers whose read is defined while busy (10_state R40), so a read of it needs no idle core. -/
theorem State.busRead_param (s : State) : s.busRead 0x018#13 = (s.readReg .param, s) := by
  simp [State.busRead, Reg.definedWhileBusy]

/-- The zero extension of PARAM loses nothing: the word read is the number `BUF_BYTES`. -/
theorem State.readReg_param_toNat (s : State) : (s.readReg .param).toNat = s.bufBytes := by
  simpa [State.readReg, State.bufBytes] using Nat.mod_eq_of_lt (by omega : s.param.toNat < 2 ^ 32)

/-- A host access is one request and a binding; neither writes PARAM. -/
theorem hostAccess_param (s t : State) (r : BusRequest) (dst : Option String) (h : hostAccess s r dst = .next t) :
    t.param = s.param := by
  obtain ⟨-, rfl⟩ := hostAccess_cases s t r dst h
  rw [State.bind_param]
  exact (s.request_frame r).1

/-- No line of a host program changes PARAM. -/
theorem hostStep_param (s t : State) (h : hostStep s = .next t) : t.param = s.param := by
  obtain ⟨-, rfl⟩ | ⟨e, rest, -, rfl⟩ | ⟨r, dst, rest, -, ha⟩ | ⟨dst, rest, p, -, ha⟩ := hostStep_cases s t h
  · rfl
  · rfl
  · exact hostAccess_param { s with program := rest } t r dst ha
  · exact hostAccess_param { s with program := p } t statusRead (some dst) ha

/-- The core's turn, completing a command or passing, does not change PARAM. -/
theorem coreStep_param (s t : State) (h : coreStep s = .next t) : t.param = s.param := by
  obtain ⟨-, rfl⟩ | ⟨c, i, -, -, -, he⟩ := coreStep_cases s t h
  · rfl
  · exact exec_param i s t he

/-- Releasing reset leaves PARAM as it was: it is no register that reset sets. -/
@[simp] theorem releaseResetStep_param (s : State) : (releaseResetStep s).param = s.param := by
  obtain ⟨-, h⟩ | ⟨-, h⟩ := releaseResetStep_cases s <;> rw [h]
  exact s.resetRegisters_param

/-- No step of any agent changes PARAM. -/
theorem step_param (s t : State) (h : step s = .next t) : t.param = s.param := by
  obtain ⟨-, hh⟩ | ⟨-, hc⟩ | ⟨-, rfl⟩ | ⟨-, rfl⟩ := step_cases s t h
  · exact hostStep_param s.takeTurn t hh
  · exact coreStep_param s.takeTurn t hc
  · exact s.takeTurn.resetRegisters_param
  · exact releaseResetStep_param s.takeTurn

/-- Settles O8: the read is defined also while busy, an idle write reaches a read-only register, and no agent's step
writes PARAM. -/
theorem paramIsConstantBufBytes : Obligations.ParamIsConstantBufBytes := by
  refine ⟨fun s => ?_, fun s v hidle => ?_, fun s t h => ?_⟩
  · rw [s.busRead_param, s.readReg_param_toNat]
  · rw [s.busWrite_idle _ v hidle, regAt_paramOffset]
    rfl
  · exact congrArg BitVec.toNat (step_param s t h)

/-- The state the model starts from holds the values of 10_state R37. -/
theorem State.reset_atResetValues : State.reset.AtResetValues where
  h := State.reset_h
  blk := State.reset_blk
  dbuf := Memory.read_nil
  len := rfl
  num := rfl
  numout := State.reset_numout
  numlen := rfl
  busy := rfl
  err := rfl
  drop := rfl
  code := rfl
  pending := rfl

/-- The `BUF_BYTES` of the reset state is the default of 00_scope R5. -/
theorem State.reset_bufBytes : State.reset.bufBytes = Config.defaultBufBytes := rfl

/-- The default `BUF_BYTES` is a legal one (00_scope R5). -/
theorem validBufBytes_default : Config.ValidBufBytes Config.defaultBufBytes := by decide

/-- Settles O50: every register's value, then PARAM by what a read of it returns in any state. -/
theorem resetStateHasResetValues : Obligations.ResetStateHasResetValues :=
  ⟨State.reset_atResetValues, rfl, State.reset.readReg_param_toNat,
    State.reset_bufBytes ▸ validBufBytes_default⟩

end Sys2Proof.Machine

/-! The port and the window: illegal requests (20_memory R52), reserved offsets and reserved bits (R56). -/

namespace Sys2Proof.Machine

/-! ### Illegal requests -/

/-- The two low bits of an offset are 0 exactly when it is a multiple of 4. -/
theorem extractLsb_low_two_eq_zero_iff (off : Offset) : off.extractLsb' 0 2 = 0#2 ↔ off.toNat % 4 = 0 := by
  simp [← BitVec.toNat_inj]

/-- Legality, with `off[1:0] = 0` read as a multiple of 4. -/
theorem BusRequest.legal_iff (r : BusRequest) : r.legal = true ↔ r.size = .word ∧ r.off.toNat % 4 = 0 := by
  simp [BusRequest.legal, extractLsb_low_two_eq_zero_iff]

/-- An illegal read answers an error with data 0. -/
theorem State.request_illegal_read (s : State) (r : BusRequest) (hl : r.legal = false) (ha : r.access = .read) :
    s.request r = { s with resp := some ⟨some 0#32, true⟩ } := by
  simp [State.request, hl, ha]

/-- An illegal write answers an error without data. -/
theorem State.request_illegal_write (s : State) (r : BusRequest) (v : Word) (hl : r.legal = false)
    (ha : r.access = .write v) : s.request r = { s with resp := some ⟨none, true⟩ } := by
  simp [State.request, hl, ha]

/-- Settles O5: the test of the low bits is divisibility by 4, and a request that fails it takes neither the read nor the
write path. -/
theorem illegalRequestOnlyGetsErrorResponse : Obligations.IllegalRequestOnlyGetsErrorResponse :=
  fun s r => ⟨r.legal_iff, fun hl => ⟨s.request_illegal_read r hl, fun v => s.request_illegal_write r v hl⟩⟩

/-! ### The register map at the words with reserved bits, and reserved space -/

/-- The offset of STATUS, whatever the size of the buffer (10_state R22). -/
@[simp] theorem regAt_statusOffset (n : Nat) : regAt n 0x004#13 = some .status := rfl

/-- The offset of LEN, whatever the size of the buffer (10_state R22). -/
@[simp] theorem regAt_lenOffset (n : Nat) : regAt n 0x008#13 = some .len := rfl

/-- The offset of NUMLEN, whatever the size of the buffer (10_state R22). -/
@[simp] theorem regAt_numlenOffset (n : Nat) : regAt n 0x00C#13 = some .numlen := rfl

/-- The offset of NUMOUT2, whatever the size of the buffer (10_state R22). -/
@[simp] theorem regAt_numout2Offset (n : Nat) : regAt n 0x088#13 = some .numout2 := rfl

/-- Reserved space: at aligned offsets no register stands exactly at 0x01C, between NUMOUT2 and the buffer's window, and
in that window beyond `BUF_BYTES` (20_memory R56). -/
theorem regAt_eq_none_iff (n : Nat) (off : Offset) (halign : off.toNat % 4 = 0) :
    regAt n off = none ↔
      off.toNat = 0x01C ∨ (0x08C ≤ off.toNat ∧ off.toNat ≤ 0x0FFC) ∨ 0x1000 + n ≤ off.toNat := by
  simp only [regAt, ite_eq_iff', reduceCtorEq, imp_false, implies_true, and_true]
  omega

/-- A read of reserved space returns 0 and changes nothing, busy or not. -/
theorem State.busRead_reserved (s : State) (off : Offset) (hr : regAt s.bufBytes off = none) :
    s.busRead off = (0, s) := by
  simp [State.busRead, hr]

/-- An idle write of reserved space changes nothing. -/
theorem State.busWrite_reserved (s : State) (off : Offset) (v : Word) (hidle : s.status.busy = false)
    (hr : regAt s.bufBytes off = none) : s.busWrite off v = s := by
  rw [s.busWrite_idle off v hidle, hr]

/-- An idle read at a register's offset returns that register. -/
theorem State.busRead_idle_register (s : State) (off : Offset) (r : Reg) (hidle : s.status.busy = false)
    (hr : regAt s.bufBytes off = some r) : s.busRead off = (s.readReg r, s) := by
  rw [s.busRead_idle off hidle, hr]

/-- An idle write at a register's offset writes that register. -/
theorem State.busWrite_idle_register (s : State) (off : Offset) (r : Reg) (v : Word) (hidle : s.status.busy = false)
    (hr : regAt s.bufBytes off = some r) : s.busWrite off v = s.writeReg r v := by
  rw [s.busWrite_idle off v hidle, hr]

/-! ### Reserved bits -/

/-- Zero extension leaves every bit above the field 0. -/
theorem setWidth_toNat_lt {n : Nat} (x : BitVec n) : (x.setWidth 32).toNat < 2 ^ n :=
  lt_of_le_of_lt (by simpa using Nat.mod_le _ _) x.isLt

/-- Bit 3 of STATUS reads 0 (10_state R29). -/
@[simp] theorem Status.byte_bit3 (t : Status) : t.byte[3] = false := by
  simp only [Status.byte, ← BitVec.getLsbD_eq_getElem, BitVec.getLsbD_append]
  simp

/-- A byte whose bit 3 is 0 has, zero-extended, none of the reserved bits of STATUS. -/
theorem setWidth_and_statusReserved (b : Byte) (h3 : b[3] = false) :
    b.setWidth 32 &&& 0xFFFFFF08#32 = 0 := by
  revert b; decide

/-- The low half of a word does not depend on its high half. -/
theorem extractLsb_low_half_and_mask (v : Word) : (v &&& 0x0000FFFF#32).extractLsb' 0 16 = v.extractLsb' 0 16 := by
  have hmask : (0x0000FFFF#32).extractLsb' 0 16 = BitVec.allOnes 16 := rfl
  rw [BitVec.extractLsb'_and, hmask, BitVec.and_allOnes]

/-- At the offset of a register that writes leave alone, an idle read returns the register and an idle write does
nothing. -/
theorem State.idle_access_readOnly (s : State) (off : Offset) (r : Reg) (v : Word) (hidle : s.status.busy = false)
    (hr : regAt s.bufBytes off = some r) (hro : s.writeReg r v = s) :
    (s.busRead off).1 = s.readReg r ∧ s.busWrite off v = s :=
  ⟨by rw [s.busRead_idle_register off r hidle hr], by rw [s.busWrite_idle_register off r v hidle hr, hro]⟩

/-- An idle write of LEN stores the low half of the word. -/
theorem State.busWrite_len (s : State) (v : Word) (hidle : s.status.busy = false) :
    s.busWrite 0x008#13 v = { s with len := v.extractLsb' 0 16 } :=
  s.busWrite_idle_register _ .len v hidle (regAt_lenOffset _)

/-- Settles O10: reserved space is where the register map has no register; of the five words with reserved bits four
are read-only, and each is read as a field extended with zeros. -/
theorem reservedSpaceReadsZeroIgnoresWrites : Obligations.ReservedSpaceReadsZeroIgnoresWrites := by
  intro s off v halign
  refine ⟨fun hres => ?reservedSpace, fun hidle => ⟨fun h => ?len, fun h => ?numlen, fun h => ?status, fun h => ?param,
    fun h => ?numout2⟩⟩
  case reservedSpace =>
    have hnone : regAt s.bufBytes off = none := (regAt_eq_none_iff _ off halign).mpr hres
    exact ⟨s.busRead_reserved off hnone, fun hidle => s.busWrite_reserved off v hidle hnone⟩
  case len =>
    obtain rfl : off = 0x008#13 := BitVec.eq_of_toNat_eq h
    rw [s.busRead_idle_register _ .len hidle (regAt_lenOffset _), s.busWrite_len v hidle, s.busWrite_len _ hidle,
      extractLsb_low_half_and_mask]
    exact ⟨setWidth_toNat_lt s.len, rfl⟩
  case numlen =>
    obtain rfl : off = 0x00C#13 := BitVec.eq_of_toNat_eq h
    obtain ⟨hread, hwrite⟩ := s.idle_access_readOnly _ .numlen v hidle (regAt_numlenOffset _) rfl
    exact ⟨hread ▸ setWidth_toNat_lt s.numlen, hwrite⟩
  case status =>
    obtain rfl : off = 0x004#13 := BitVec.eq_of_toNat_eq h
    obtain ⟨hread, hwrite⟩ := s.idle_access_readOnly _ .status v hidle (regAt_statusOffset _) rfl
    exact ⟨hread ▸ setWidth_and_statusReserved _ s.status.byte_bit3, hwrite⟩
  case param =>
    obtain rfl : off = 0x018#13 := BitVec.eq_of_toNat_eq h
    obtain ⟨hread, hwrite⟩ := s.idle_access_readOnly _ .param v hidle (regAt_paramOffset _) rfl
    exact ⟨hread ▸ setWidth_toNat_lt s.param, hwrite⟩
  case numout2 =>
    obtain rfl : off = 0x088#13 := BitVec.eq_of_toNat_eq h
    obtain ⟨hread, hwrite⟩ := s.idle_access_readOnly _ .numout2 v hidle (regAt_numout2Offset _) rfl
    exact ⟨hread ▸ setWidth_toNat_lt s.numout[8], hwrite⟩

end Sys2Proof.Machine

/-! Command words (30_encoding R80 to R84): the decoder against the encoder, and the launch attempt with an illegal
word. -/

namespace Sys2Proof.Machine

/-! ### The decoder and the encoder -/

/-- A word is its two fields, RSV above OP (30_encoding R80). -/
theorem rsvField_append_opField (c : Word) : rsvField c ++ opField c = c :=
  (BitVec.extractLsb'_append_extractLsb'_eq_extractLsb' rfl).trans BitVec.extractLsb'_eq_self

/-- The word of a command has RSV = 0. -/
@[simp] theorem rsvField_encode (i : Instr) : rsvField (encode i) = 0#24 := by
  cases i <;> rfl

/-- The word of a command has the command's code in OP. -/
@[simp] theorem opField_encode (i : Instr) : opField (encode i) = instrOp i := by
  cases i <;> rfl

/-- The code of a command stands for that command. -/
@[simp] theorem opInstr_instrOp (i : Instr) : opInstr (instrOp i) = some i := by
  cases i <;> rfl

/-- A code that stands for a command is the command's only code (30_encoding R82). -/
theorem eq_instrOp_of_opInstr (op : BitVec 8) (i : Instr) (h : opInstr op = some i) : op = instrOp i := by
  unfold opInstr at h
  split_ifs at h <;> cases h <;> assumption

/-- The word of a command decodes to that command. -/
@[simp] theorem decode_encode (i : Instr) : decode (encode i) = .ok i := by
  simp [decode]

/-- A word that decodes has RSV = 0, and its OP stands for the command. -/
theorem fields_of_decode_ok (c : Word) (i : Instr) (h : decode c = .ok i) :
    rsvField c = 0#24 ∧ opInstr (opField c) = some i := by
  unfold decode at h
  split at h
  · next hrsv =>
    split at h
    · next j hop =>
      obtain rfl : j = i := by simpa using h
      exact ⟨hrsv, hop⟩
    · cases h
  · cases h

/-- Only the word of a command decodes to it: the two fields fix the word. -/
theorem eq_encode_of_decode_ok (c : Word) (i : Instr) (h : decode c = .ok i) : c = encode i := by
  obtain ⟨hrsv, hop⟩ := fields_of_decode_ok c i h
  calc c = rsvField c ++ opField c := (rsvField_append_opField c).symm
    _ = 0#24 ++ instrOp i := by rw [hrsv, eq_instrOp_of_opInstr _ i hop]

/-- The words of the commands are the five of the opcode map (30_encoding R82). -/
theorem encode_toNat_mem (i : Instr) : (encode i).toNat ∈ [0x01, 0x02, 0x03, 0x10, 0x11] := by
  cases i <;> decide

/-- Every word but the five is illegal (30_encoding R84). -/
theorem decode_error_of_notMem (c : Word) (hc : c.toNat ∉ [0x01, 0x02, 0x03, 0x10, 0x11]) :
    ∃ e, decode c = .error e := by
  refine (decode_cases c).resolve_left ?_
  rintro ⟨i, hi⟩
  exact hc (eq_encode_of_decode_ok c i hi ▸ encode_toNat_mem i)

/-- Settles O1: each of the five words is the encoder's word of its command. -/
theorem commandWordsDecodeAsListed : Obligations.CommandWordsDecodeAsListed :=
  ⟨decode_encode .shaInit, decode_encode .shaCompress, decode_encode .shaHash, decode_encode .numDecode,
    decode_encode .numEncode⟩

/-! ### The launch attempt with an illegal word -/

/-- The offset of CMD, whatever the size of the buffer (10_state R22). -/
@[simp] theorem regAt_cmdOffset (n : Nat) : regAt n 0x000#13 = some .cmd := rfl

/-- An idle write of CMD is a launch attempt (20_memory R54). -/
theorem State.busWrite_cmd (s : State) (c : Word) (hidle : s.status.busy = false) :
    s.busWrite 0x000#13 c = s.launch c :=
  s.busWrite_idle_register _ .cmd c hidle (regAt_cmdOffset _)

/-- A launch attempt with an illegal word only reports ILLEGAL_CMD (60_exceptions R202). -/
theorem State.launch_illegal (s : State) (c : Word) (e : IllegalWord) (h : decode c = .error e) :
    s.launch c = { s with status := s.status.illegalLaunch } := by
  simp [State.launch, h]

/-- Settles O3: a word that decodes is one of the five, and a launch attempt with any other word only reports
ILLEGAL_CMD. -/
theorem everyOtherWordIsIllegal : Obligations.EveryOtherWordIsIllegal := by
  intro c hc
  obtain ⟨e, he⟩ := decode_error_of_notMem c hc
  refine ⟨⟨e, he⟩, fun s hidle => ?_⟩
  rw [s.busWrite_cmd c hidle, s.launch_illegal c e he]
  rfl

end Sys2Proof.Machine

/-! The hash family (40_sha256): the logical functions, the constants, the padding, `Compress`, the chain of blocks, and
the commands SHA_INIT, SHA_COMPRESS and SHA_HASH, alone and block by block over the bus. -/

namespace Sys2Proof.Machine

open Sys2Proof.Claims

/-! ### The logical functions (R102) -/

/-- `Ch` takes each bit from y or z, as x chooses. -/
theorem getLsbD_ch (x y z : Word) (j : Nat) (hj : j < 32) :
    (ch x y z).getLsbD j = if x.getLsbD j then y.getLsbD j else z.getLsbD j := by
  have choice : ∀ a b c : Bool, ((a && b) ^^ (!a && c)) = if a then b else c := by decide
  simpa [ch, hj] using choice (x.getLsbD j) (y.getLsbD j) (z.getLsbD j)

/-- Each bit of `Maj` is the majority of the three bits. -/
theorem getLsbD_maj (x y z : Word) (j : Nat) :
    (maj x y z).getLsbD j = decide (2 ≤ (x.getLsbD j).toNat + (y.getLsbD j).toNat + (z.getLsbD j).toNat) := by
  have majority : ∀ a b c : Bool,
      ((a && b) ^^ (a && c) ^^ (b && c)) = decide (2 ≤ a.toNat + b.toNat + c.toNat) := by decide
  simpa only [maj, BitVec.getLsbD_xor, BitVec.getLsbD_and] using majority (x.getLsbD j) (y.getLsbD j) (z.getLsbD j)

/-- `Σ0` as the rotations of R102. -/
theorem bigSigma0_eq_rotations (x : Word) :
    bigSigma0 x = x.rotateRight 2 ^^^ x.rotateRight 13 ^^^ x.rotateRight 22 := by
  simp [bigSigma0, rotr_eq_rotateRight]

/-- `Σ1` as the rotations of R102. -/
theorem bigSigma1_eq_rotations (x : Word) :
    bigSigma1 x = x.rotateRight 6 ^^^ x.rotateRight 11 ^^^ x.rotateRight 25 := by
  simp [bigSigma1, rotr_eq_rotateRight]

/-- `σ0` as the rotations and the shift of R102. -/
theorem smallSigma0_eq_rotations (x : Word) :
    smallSigma0 x = x.rotateRight 7 ^^^ x.rotateRight 18 ^^^ (x >>> 3) := by
  simp [smallSigma0, shr, rotr_eq_rotateRight]

/-- `σ1` as the rotations and the shift of R102. -/
theorem smallSigma1_eq_rotations (x : Word) :
    smallSigma1 x = x.rotateRight 17 ^^^ x.rotateRight 19 ^^^ (x >>> 10) := by
  simp [smallSigma1, shr, rotr_eq_rotateRight]

/-- Settles O33: a bit of `Ch` and of `Maj` depends on the three bits in its place alone, and the model's ROTR is the
rotation. -/
theorem logicalFunctionsBitwise : Obligations.LogicalFunctionsBitwise :=
  fun x y z => ⟨getLsbD_ch x y z, fun j _ => getLsbD_maj x y z j, bigSigma0_eq_rotations x, bigSigma1_eq_rotations x,
    smallSigma0_eq_rotations x, smallSigma1_eq_rotations x⟩

/-! ### The constants (R103, R104) -/

/-- `K[t]` against the cube root of its prime, whose integer part is below 7, for every prime up to 311. -/
theorem roundConstants_cubeRoots : ∀ t, t < 64 → ∃ q < 7,
    (q * 2 ^ 32 + (roundConstants.getD t 0).toNat) ^ 3 ≤ firstPrimes.getD t 0 * 2 ^ 96 ∧
    firstPrimes.getD t 0 * 2 ^ 96 < (q * 2 ^ 32 + (roundConstants.getD t 0).toNat + 1) ^ 3 := by
  decide +kernel

/-- `IV[i]` against the square root of its prime, whose integer part is below 5, for every prime up to 19. -/
theorem initialHash_squareRoots : ∀ i : Fin 8, ∃ q < 5,
    (q * 2 ^ 32 + initialHash[i].toNat) ^ 2 ≤ firstPrimes.getD i 0 * 2 ^ 64 ∧
    firstPrimes.getD i 0 * 2 ^ 64 < (q * 2 ^ 32 + initialHash[i].toNat + 1) ^ 2 := by
  decide +kernel

/-- Settles O32: the integer parts of the roots are small, so the inequalities are checked on the tables. -/
theorem constantsAreRootsOfPrimes : Obligations.ConstantsAreRootsOfPrimes := by
  refine ⟨roundConstants_length, fun t ht => ?cubeRoot, fun i => ?squareRoot⟩
  case cubeRoot =>
    obtain ⟨q, -, hq⟩ := roundConstants_cubeRoots t ht
    exact ⟨q, hq⟩
  case squareRoot =>
    obtain ⟨q, -, hq⟩ := initialHash_squareRoots i
    exact ⟨q, hq⟩

/-! ### The padding (R110) -/

/-- `be64` gives eight bytes, of any number (00_scope R7). -/
@[simp] theorem be64_length (n : Nat) : (be64 n).length = 8 := by
  simp [be64]

/-- The padded message fills `N(L)` blocks of 64 bytes. -/
theorem pad_length (m : List Byte) : (pad m).length = 64 * blockCount m.length := by
  have hlen : (pad m).length = m.length + 1 + padZeros m.length + 8 := by simp [pad]; omega
  obtain ⟨h56, h63⟩ := padZeros_spec m.length
  rw [hlen, blockCount]
  omega

/-- Settles O34: the zero run's length fixes the block count, and the last eight bytes are those of `be64`. -/
theorem paddingFillsWholeBlocks : Obligations.PaddingFillsWholeBlocks := by
  intro m hm
  obtain ⟨h56, h63⟩ := padZeros_spec m.length
  exact ⟨pad_length m, rfl, h56, h63, be64 (8 * m.length), be64_length _, by simp [pad], be64_value _ hm⟩

/-! ### `Compress` (R112 to R114) -/

/-- The model's schedule is the schedule of R112. -/
theorem isSchedule_schedule (m : Vector Word 16) : IsSchedule m fun t => (schedule m).getD t 0 := by
  refine ⟨fun t => ?_, fun t h16 h64 => ?_⟩
  · have hfirst := scheduleMore_getD_of_lt 48 m.toList t (by simp)
    simpa [schedule] using hfirst
  · have hrec := scheduleMore_recurrence 48 m.toList (by simp) t (by simpa using h16) (by simpa using h64)
    rwa [smallSigma1_eq_rotations, smallSigma0_eq_rotations] at hrec

/-- The round variables before round t: the fold of `rounds` over the first t constants and schedule words. -/
def varsBeforeRound (hin : Vector Word 8) (m : Vector Word 16) (t : Nat) : RoundVars :=
  ((List.zip roundConstants (schedule m)).take t).foldl roundStep (roundStart hin)

/-- Each of the 64 rounds has its constant and its schedule word. -/
theorem zip_roundConstants_length (m : Vector Word 16) : (List.zip roundConstants (schedule m)).length = 64 := by
  simp [roundConstants_length, schedule_length]

/-- After all 64 rounds they are what `rounds` answers. -/
theorem varsBeforeRound_64 (hin : Vector Word 8) (m : Vector Word 16) :
    varsBeforeRound hin m 64 = rounds (roundStart hin) m := by
  rw [varsBeforeRound, List.take_of_length_le (zip_roundConstants_length m).le, rounds]

/-- Round t replaces them by the round function with K[t] and W[t]. -/
theorem varsBeforeRound_succ (hin : Vector Word 8) (m : Vector Word 16) (t : Nat) (ht : t < 64) :
    varsBeforeRound hin m (t + 1) =
      roundStep (varsBeforeRound hin m t) (roundConstants.getD t 0, (schedule m).getD t 0) := by
  have hk : t < roundConstants.length := roundConstants_length.symm ▸ ht
  have hw : t < (schedule m).length := (schedule_length m).symm ▸ ht
  have hzip : t < (List.zip roundConstants (schedule m)).length := (zip_roundConstants_length m).symm ▸ ht
  rw [varsBeforeRound, foldl_take_succ roundStep _ _ t hzip, List.getElem_zip, List.getD_eq_getElem _ 0 hk,
    List.getD_eq_getElem _ 0 hw, varsBeforeRound]

/-- One round replaces all eight variables at once, with the functions of R102 written out. -/
theorem roundStep_eq (a b c d e f g h k w t1 t2 : Word)
    (h1 : t1 = h + (e.rotateRight 6 ^^^ e.rotateRight 11 ^^^ e.rotateRight 25) + ((e &&& f) ^^^ (~~~e &&& g)) + k + w)
    (h2 : t2 = (a.rotateRight 2 ^^^ a.rotateRight 13 ^^^ a.rotateRight 22) +
      ((a &&& b) ^^^ (a &&& c) ^^^ (b &&& c))) :
    roundStep ⟨a, b, c, d, e, f, g, h⟩ (k, w) = ⟨t1 + t2, a, b, c, d + t1, e, f, g⟩ := by
  rw [h1, h2, ← bigSigma0_eq_rotations, ← bigSigma1_eq_rotations]
  rfl

/-- The round variables follow the rounds of R113. -/
theorem isRounds_varsBeforeRound (hin : Vector Word 8) (m : Vector Word 16) :
    IsRounds (fun t => roundConstants.getD t 0) (fun t => (schedule m).getD t 0) (varsBeforeRound hin m) := by
  intro t ht a b c d e f g h t1 t2 hv h1 h2
  rw [varsBeforeRound_succ hin m t ht, hv]
  exact roundStep_eq _ _ _ _ _ _ _ _ _ _ _ _ h1 h2

/-- Settles O31: the schedule is that of the model, and the round variables are the partial folds of `rounds`. -/
theorem compressRunsSixtyFourRounds : Obligations.CompressRunsSixtyFourRounds := by
  intro hin m
  refine ⟨_, varsBeforeRound hin m, isSchedule_schedule m, rfl, isRounds_varsBeforeRound hin m, ?_⟩
  simp only [compress, varsBeforeRound_64]

/-! ### The chain of blocks (R111, R130) -/

/-- Word `j` of a block, by its number. -/
theorem block_getElem (p : List Byte) (i : Nat) (j : Fin 16) : (block p i)[j] = blockWord p i j := by
  fin_cases j <;> rfl

/-- The model's blocks are those of R111. -/
theorem isBlock_block (p : List Byte) (i : Nat) : IsBlock p i (block p i) := by
  intro j
  rw [block_getElem, blockWord, beWord_toNat]

/-- Settles O35: the chain and the blocks are those of the model. -/
theorem hashStateChainsItsBlocks : Obligations.HashStateChainsItsBlocks :=
  fun m => ⟨hashChain (pad m), block (pad m), rfl, fun i _ => ⟨isBlock_block (pad m) i, rfl⟩, rfl⟩

/-! ### The commands of the hash family (R140 to R142) -/

/-- SHA_INIT completes with the initial hash state in H. -/
theorem exec_shaInit (s : State) : exec .shaInit s = .next (State.complete { s with h := initialHash }) := rfl

/-- SHA_COMPRESS completes with the compression of H and BLK in H. -/
theorem exec_shaCompress (s : State) :
    exec .shaCompress s = .next (State.complete { s with h := compress s.h s.blk }) := rfl

/-- The operand's byte string is read from DBUF exactly when it is all written. -/
theorem State.operandBytes_eq_some_iff (s : State) (m : List Byte) : s.operandBytes = some m ↔ OperandIs s m := by
  simp [State.operandBytes, OperandIs, Memory.readString_eq_some]

/-- SHA_HASH completes with the hash state of its operand in H. -/
theorem exec_shaHash_of_operandIs (s : State) (m : List Byte) (hlen : s.len.toNat ≤ s.bufBytes) (hm : OperandIs s m) :
    exec .shaHash s = .next (State.complete { s with h := sha256State m }) := by
  have hin : s.lenOutOfRange = false := by simpa [State.lenOutOfRange] using hlen
  simp [exec, execShaHash, hin, (s.operandBytes_eq_some_iff m).mpr hm]

/-- Settles O29: each issue ends with the constant `IV` in H, whatever H held. -/
theorem shaInitLoadsInitialHash : Obligations.ShaInitLoadsInitialHash := by
  refine ⟨decode_encode .shaInit, fun s => ⟨exec_shaInit s, fun t u ht hu => ?_⟩⟩
  rw [exec_shaInit] at ht hu
  cases ht
  cases hu
  rfl

/-- Settles O30: completion changes STATUS and PENDING only, as `doneStatus` says. -/
theorem shaCompressReplacesHashState : Obligations.ShaCompressReplacesHashState :=
  ⟨decode_encode .shaCompress, exec_shaCompress⟩

/-! ### A message hashed block by block over the bus (R131) -/

/-- The offset of a word of BLK, whatever the size of the buffer (10_state R22). -/
theorem regAt_blkOffset (n : Nat) (j : Fin 16) : regAt n (BitVec.ofNat 13 (0x040 + 4 * j.val)) = some (.blk j) := by
  fin_cases j <;> rfl

/-- An idle write of a word of BLK stores it there. -/
theorem State.busWrite_blk (s : State) (j : Fin 16) (v : Word) (hidle : s.status.busy = false) :
    s.busWrite (BitVec.ofNat 13 (0x040 + 4 * j.val)) v = { s with blk := s.blk.set j v } :=
  s.busWrite_idle_register _ (.blk j) v hidle (regAt_blkOffset _ j)

/-- A block register after the listed words of `b` are stored over it. -/
def overwriteWords (b : Vector Word 16) (js : List (Fin 16)) (old : Vector Word 16) : Vector Word 16 :=
  js.foldl (fun v (j : Fin 16) => v.set j b[j]) old

/-- A listed word is that of `b`, every other word is the old one. -/
theorem overwriteWords_getElem (b : Vector Word 16) (js : List (Fin 16)) (old : Vector Word 16) (k : Fin 16) :
    (overwriteWords b js old)[k] = if k ∈ js then b[k] else old[k] := by
  induction js generalizing old with
  | nil => rfl
  | cons j js ih =>
    have hstep : overwriteWords b (j :: js) old = overwriteWords b js (old.set j b[j]) := rfl
    rw [hstep, ih]
    by_cases hjk : k = j
    · subst hjk
      simp
    · have hval : j.val ≠ k.val := fun h => hjk (Fin.ext h.symm)
      simp [hjk, Vector.getElem_set_ne, hval]

/-- All sixteen words make the whole block. -/
theorem overwriteWords_finRange (b old : Vector Word 16) : overwriteWords b (List.finRange 16) old = b := by
  refine Vector.ext fun k hk => ?_
  simpa using overwriteWords_getElem b (List.finRange 16) old ⟨k, hk⟩

/-- Idle writes of words of BLK store those words one after the other, and nothing else. -/
theorem foldl_busWrite_blk (b : Vector Word 16) (js : List (Fin 16)) (s : State) (hidle : s.status.busy = false) :
    js.foldl (fun s j => s.busWrite (BitVec.ofNat 13 (0x040 + 4 * j.val)) b[j]) s =
      { s with blk := overwriteWords b js s.blk } := by
  induction js generalizing s with
  | nil => rfl
  | cons j js ih =>
    rw [List.foldl_cons, s.busWrite_blk j b[j] hidle, ih { s with blk := s.blk.set j b[j] } hidle]
    rfl

/-- The sixteen writes of an idle host put the block into BLK, and change nothing else. -/
theorem writeBlk_idle (b : Vector Word 16) (s : State) (hidle : s.status.busy = false) :
    writeBlk b s = { s with blk := b } := by
  rw [writeBlk, foldl_busWrite_blk b _ s hidle, overwriteWords_finRange]

/-- A launch attempt with the word of a command is taken (60_exceptions R202). -/
theorem State.launch_encode (s : State) (i : Instr) :
    s.launch (encode i) = { s with status := s.status.launched, pending := some (encode i) } := by
  simp [State.launch]

/-- A command issued to an idle core runs on the registers as they stand, with STATUS and PENDING of a launch. -/
theorem command_idle (i : Instr) (s : State) (hidle : s.status.busy = false) :
    command i s = exec i { s with status := s.status.launched, pending := some (encode i) } := by
  rw [command, s.busWrite_cmd _ hidle, s.launch_encode]
  simp [coreStep]

/-- After n blocks the core is idle and H holds the chain so far. -/
theorem hashByBlocks_chain (m : List Byte) (s : State) (hidle : s.status.busy = false) (n : Nat) :
    ∃ t, hashByBlocks m n s = .next t ∧ t.status.busy = false ∧ t.h = hashChain (pad m) n := by
  induction n with
  | zero => exact ⟨_, (command_idle .shaInit s hidle).trans (exec_shaInit _), rfl, rfl⟩
  | succ n ih =>
    obtain ⟨t, ht, htidle, hth⟩ := ih
    have hnext : hashByBlocks m (n + 1) s = command .shaCompress { t with blk := block (pad m) n } := by
      simp only [hashByBlocks, ht, writeBlk_idle _ t htidle]
    refine ⟨_, hnext.trans ((command_idle .shaCompress { t with blk := block (pad m) n } htidle).trans
      (exec_shaCompress _)), rfl, ?_⟩
    exact congrArg (compress · (block (pad m) n)) hth

/-- Settles O38: the run keeps "idle, with the chain so far in H" from block to block, and the whole chain is what
SHA_HASH computes. -/
theorem blockByBlockEqualsWholeHash : Obligations.BlockByBlockEqualsWholeHash := by
  intro m s hidle _
  obtain ⟨t, ht, -, hth⟩ := hashByBlocks_chain m s hidle (blockCount m.length)
  refine ⟨t, ht, hth, fun u hlen hm => ⟨_, exec_shaHash_of_operandIs u m hlen hm, ?_⟩⟩
  exact hth.symm

end Sys2Proof.Machine

/-! The codec family (41_numcodec): the exact value of a byte string, the value and the length of an encoding, and the
command NUM_ENCODE. -/

namespace Sys2Proof.Machine

/-! ### The exact value of a byte string (R160 to R163) -/

/-- The number of a byte string is the positional sum of its bytes (R160). -/
theorem leValue_eq_sum (b : List Byte) :
    leValue b = ((List.range b.length).map fun k => (b.getD k 0).toNat * 256 ^ k).sum := by
  induction b with
  | nil => rfl
  | cons x b ih =>
    simp [leValue, ih, List.range_succ_eq_map, Function.comp_def, ← List.sum_map_mul_left, pow_succ',
      Nat.mul_left_comm]

/-- The empty byte string is 0. -/
@[simp] theorem scriptDecode_nil : scriptDecode [] = 0 := rfl

/-- Settles O40: the value by the last byte, with the number of the other bytes written as a sum. -/
theorem decodeIsSignedPositionalSum : Obligations.DecodeIsSignedPositionalSum :=
  ⟨scriptDecode_nil, fun b last => by rw [scriptDecode_append, leValue_eq_sum]⟩

/-- Settles O42: zero bytes are the number 0, and so are the low seven bits of the last byte. -/
theorem negativeZeroDecodesToZero : Obligations.NegativeZeroDecodesToZero := by
  intro n last hlast
  have hlow : last.toNat % 128 = 0 := by rw [← and_7F_toNat, hlast]; rfl
  rw [scriptDecode_append, leValue_zeros, hlow]
  simp

/-- The absolute value is the magnitude, whatever the sign (R160). -/
theorem scriptDecode_append_natAbs (b : List Byte) (last : Byte) :
    (scriptDecode (b ++ [last])).natAbs = leValue b + last.toNat % 128 * 256 ^ b.length := by
  rw [scriptDecode_append, Int.natAbs_mul, Int.natAbs_natCast]
  split <;> simp

/-- A value is negative exactly when it is not 0 and the sign bit is set (R161). -/
theorem scriptDecode_append_neg_iff (b : List Byte) (last : Byte) (h0 : scriptDecode (b ++ [last]) ≠ 0) :
    scriptDecode (b ++ [last]) < 0 ↔ 128 ≤ last.toNat := by
  rw [scriptDecode_append] at h0 ⊢
  split_ifs at h0 ⊢ with hlast
  · omega
  · omega

/-- A value of n + 1 bytes has a magnitude of at most 8n + 7 bits: one bit is the sign. -/
theorem scriptDecode_append_natAbs_lt (b : List Byte) (last : Byte) :
    (scriptDecode (b ++ [last])).natAbs < 128 * 256 ^ b.length := by
  have hb := leValue_lt b
  have hlow : last.toNat % 128 * 256 ^ b.length ≤ 127 * 256 ^ b.length := Nat.mul_le_mul_right _ (by omega)
  rw [scriptDecode_append_natAbs]
  omega

/-- Two byte strings of one length with one value are equal, unless the value is 0. -/
theorem eq_of_scriptDecode_eq (b c : List Byte) (x y : Byte) (hlen : b.length = c.length)
    (hval : scriptDecode (b ++ [x]) = scriptDecode (c ++ [y])) (h0 : scriptDecode (b ++ [x]) ≠ 0) :
    b ++ [x] = c ++ [y] := by
  have hb := leValue_lt b
  have hc := leValue_lt c
  have hmag : leValue b + x.toNat % 128 * 256 ^ b.length = leValue c + y.toNat % 128 * 256 ^ b.length := by
    rw [← scriptDecode_append_natAbs, hval, scriptDecode_append_natAbs, hlen]
  have hsign : 128 ≤ x.toNat ↔ 128 ≤ y.toNat := by
    rw [← scriptDecode_append_neg_iff b x h0, hval, scriptDecode_append_neg_iff c y (hval ▸ h0)]
  have hrest : leValue b = leValue c := by
    have hmod := congrArg (· % 256 ^ b.length) hmag
    simpa [Nat.mod_eq_of_lt hb, Nat.mod_eq_of_lt (hlen ▸ hc)] using hmod
  have hlow : x.toNat % 128 = y.toNat % 128 :=
    Nat.eq_of_mul_eq_mul_right (by positivity : 0 < 256 ^ b.length) (by omega)
  have hlast : x = y := BitVec.eq_of_toNat_eq (by omega)
  rw [leValue_inj b c hlen hrest, hlast]

/-! ### The value of an encoding (R168) -/

/-- Zero has the empty encoding (R165). -/
@[simp] theorem scriptEncode_zero : scriptEncode 0 = [] := rfl

/-- An encoding decodes to its value, for every integer. -/
theorem scriptDecode_scriptEncode (v : Int) : scriptDecode (scriptEncode v) = v := by
  by_cases h0 : v = 0
  · simp [h0]
  · obtain ⟨b, last, he, hmag, hsign, -, -, -⟩ := scriptEncode_form v h0
    rw [he, scriptDecode_append, hmag]
    split <;> omega

/-- Settles O43: the round trip holds of every integer, and the value was in range. -/
theorem encodeThenDecodeReturnsValue : Obligations.EncodeThenDecodeReturnsValue := by
  intro v hlo hhi
  rw [scriptDecode_scriptEncode]
  exact ⟨rfl, (inS64_iff v).mpr ⟨hlo, hhi⟩⟩

/-! ### The length of an encoding (R166) -/

/-- An encoding fits in n + 1 bytes exactly when the magnitude leaves the sign bit of the last one free. -/
theorem scriptEncode_length_le_iff (v : Int) (n : Nat) :
    (scriptEncode v).length ≤ n + 1 ↔ v.natAbs < 128 * 256 ^ n := by
  by_cases h0 : v = 0
  · simp [h0]
  · obtain ⟨b, last, he, -, -, hlt, hge, -⟩ := scriptEncode_form v h0
    rw [he, List.length_append, List.length_singleton, Nat.add_le_add_iff_right]
    constructor
    · intro hle
      exact hlt.trans_le (Nat.mul_le_mul_left _ (Nat.pow_le_pow_right (by decide) hle))
    · intro hv
      by_contra! hn
      have hpow : 256 ^ n ≤ 256 ^ (b.length - 1) := Nat.pow_le_pow_right (by decide) (by omega)
      have hmin := hge (List.ne_nil_of_length_pos (by omega))
      omega

/-- The encoding of a nonzero value is not empty. -/
theorem scriptEncode_length_pos (v : Int) (h0 : v ≠ 0) : 0 < (scriptEncode v).length := by
  obtain ⟨b, last, he, -⟩ := scriptEncode_form v h0
  simp [he]

/-- R166's bound for n + 1 bytes, as seven bits on top of n whole bytes. -/
theorem two_pow_magnitudeBits (n : Nat) : 2 ^ (8 * (n + 1) - 1) = 128 * 256 ^ n := by
  rw [show 8 * (n + 1) - 1 = 7 + 8 * n by omega, pow_add, pow_mul]
  rfl

/-- R166's condition on n holds exactly from the length of the encoding on. -/
theorem scriptEncode_length_le_iff_two_pow (v : Int) (n : Nat) (hn : 1 ≤ n) :
    (scriptEncode v).length ≤ n ↔ v.natAbs < 2 ^ (8 * n - 1) := by
  obtain ⟨m, rfl⟩ := Nat.exists_eq_add_of_le' hn
  rw [scriptEncode_length_le_iff, two_pow_magnitudeBits]

/-- An encoding of an `s64` value has at most nine bytes. -/
theorem scriptEncode_length_le_nine (v : Int) (hlo : -2 ^ 63 ≤ v) (hhi : v ≤ 2 ^ 63 - 1) :
    (scriptEncode v).length ≤ 9 :=
  (scriptEncode_length_le_iff_two_pow v 9 (by decide)).mpr (by omega)

/-- Settles O44: the length is the least n of R166, and eight bytes are not enough for −2^63 alone. -/
theorem encodingLengthIsLeast : Obligations.EncodingLengthIsLeast := by
  refine ⟨rfl, fun v hlo hhi h0 => ?_⟩
  have hpos := scriptEncode_length_pos v h0
  have hnine := scriptEncode_length_le_nine v hlo hhi
  have hshort := scriptEncode_length_le_iff_two_pow v 8 (by decide)
  exact ⟨hpos, hnine, by omega, (scriptEncode_length_le_iff_two_pow v _ hpos).mp le_rfl,
    fun n hn => (scriptEncode_length_le_iff_two_pow v n hn).mpr⟩

/-! ### The shortest byte string (R167) -/

/-- No byte string is shorter than the encoding of its value. -/
theorem scriptEncode_scriptDecode_length_le (b : List Byte) : (scriptEncode (scriptDecode b)).length ≤ b.length := by
  rcases List.eq_nil_or_concat' b with rfl | ⟨c, last, rfl⟩
  · simp
  · rw [List.length_append, List.length_singleton, scriptEncode_length_le_iff]
    exact scriptDecode_append_natAbs_lt c last

/-- A byte string as short as the encoding of its value is that encoding. -/
theorem eq_scriptEncode_of_length_le (b : List Byte) (hlen : b.length ≤ (scriptEncode (scriptDecode b)).length) :
    b = scriptEncode (scriptDecode b) := by
  by_cases h0 : scriptDecode b = 0
  · rw [h0] at hlen ⊢
    exact List.eq_nil_of_length_eq_zero (Nat.le_zero.mp hlen)
  · rcases List.eq_nil_or_concat' b with rfl | ⟨c, x, rfl⟩
    · exact absurd scriptDecode_nil h0
    · obtain ⟨d, y, he, -⟩ := scriptEncode_form _ h0
      have hval : scriptDecode (d ++ [y]) = scriptDecode (c ++ [x]) := he ▸ scriptDecode_scriptEncode _
      have hle := scriptEncode_scriptDecode_length_le (c ++ [x])
      simp only [he, List.length_append, List.length_singleton, Nat.add_le_add_iff_right] at hlen hle
      exact (eq_of_scriptDecode_eq c d x y (hlen.antisymm hle) hval.symm h0).trans he.symm

/-- An encoding whose last byte is the sign alone has a byte with bit 7 set before it. -/
theorem signByte_follows_highBit (v : Int) (b : List Byte) (last : Byte) (he : scriptEncode v = b ++ [last])
    (hlast : last.toNat % 128 = 0) : ∃ b' x, b = b' ++ [x] ∧ 128 ≤ x.toNat := by
  have h0 : v ≠ 0 := by
    rintro rfl
    simp at he
  obtain ⟨c, y, he', -, -, -, -, hbyte⟩ := scriptEncode_form v h0
  obtain ⟨rfl, hy⟩ := List.append_inj' (he.symm.trans he') rfl
  obtain rfl : last = y := by simpa using hy
  exact hbyte hlast

/-- Settles O45: a byte string is longer than the encoding of its value, or as short and then equal to it. -/
theorem encodingIsShortest : Obligations.EncodingIsShortest := by
  refine ⟨fun b _ => ?_, fun v b last _ _ he hlast => ?_⟩
  · exact (le_or_gt b.length _).imp_left (eq_scriptEncode_of_length_le b)
  · have hlow : last.toNat % 128 = 0 := by rcases hlast with rfl | rfl <;> rfl
    obtain ⟨b', x, hb, hx⟩ := signByte_follows_highBit v b last he hlow
    exact ⟨b', x, hb, by simpa [hx] using and_80_ne_zero x⟩

/-! ### NUM_ENCODE (R171) -/

/-- Every 64-bit pattern is an `s64` value (00_scope R9). -/
theorem sint64_range (x : DWord) : -2 ^ 63 ≤ sint64 x ∧ sint64 x ≤ 2 ^ 63 - 1 := by
  have hx := x.isLt
  unfold sint64
  split <;> omega

/-- Byte k of NUMOUT is byte k of the encoding, or 0 past its end. -/
theorem encodeOut_getElem (e : List Byte) (k : Fin 9) : (encodeOut e)[k] = e.getD k 0 := by
  fin_cases k <;> rfl

/-- NUM_ENCODE completes with the encoding of the signed value of NUM in NUMOUT, and its length in NUMLEN. -/
theorem exec_numEncode (s : State) :
    exec .numEncode s = .next (State.complete { s with
      numlen := BitVec.ofNat 4 (scriptEncode (sint64 s.num)).length,
      numout := encodeOut (scriptEncode (sint64 s.num)) }) := rfl

/-- NUMLEN holds the length of an encoding of an `s64` value without loss. -/
theorem numlen_toNat (x : DWord) :
    (BitVec.ofNat 4 (scriptEncode (sint64 x)).length).toNat = (scriptEncode (sint64 x)).length := by
  obtain ⟨hlo, hhi⟩ := sint64_range x
  have hnine := scriptEncode_length_le_nine _ hlo hhi
  exact Nat.mod_eq_of_lt (by omega)

/-- Settles O48: the nine bytes and the four-bit length hold the whole encoding. -/
theorem numEncodeWritesEncoding : Obligations.NumEncodeWritesEncoding :=
  ⟨decode_encode .numEncode, fun s => ⟨_, _, numlen_toNat s.num, encodeOut_getElem _, exec_numEncode s⟩⟩

end Sys2Proof.Machine

/-! Launch and errors (60_exceptions R202 to R204): an accepted and a refused launch attempt over the bus, and the two
ways a command ends. -/

namespace Sys2Proof.Machine

open Sys2Proof.Claims

/-! ### The launch attempt (R202) -/

/-- On an idle core a refused launch attempt leaves BUSY = 0. -/
theorem Status.illegalLaunch_of_idle (t : Status) (hidle : t.busy = false) :
    t.illegalLaunch = ⟨false, true, false, .illegalCmd⟩ := by
  simp [Status.illegalLaunch, hidle]

/-- Settles O17: the word of a command is taken; a word of no command does not decode, so it is refused. -/
theorem launchSetsBusyAndPending : Obligations.LaunchSetsBusyAndPending := by
  intro s hidle
  refine ⟨fun i => ?taken, fun c hc => ?refused⟩
  case taken =>
    rw [s.busWrite_cmd _ hidle, s.launch_encode]
    rfl
  case refused =>
    obtain ⟨i, hi⟩ | ⟨e, he⟩ := decode_cases c
    · exact absurd (eq_encode_of_decode_ok c i hi) (hc i)
    · rw [s.busWrite_cmd c hidle, s.launch_illegal c e he, s.status.illegalLaunch_of_idle hidle]

/-! ### The ends of a command (R203, R204, R206) -/

/-- The errors a command can raise (R204). -/
def Raises (i : Instr) (code : ErrCode) : Prop :=
  (i = .shaHash ∧ code = .lenRange) ∨ (i = .numDecode ∧ (code = .lenRange ∨ code = .numRange))

/-- An error that is raised has a code. -/
theorem Raises.ne_none {i : Instr} {code : ErrCode} (h : Raises i code) : code ≠ .none := by
  obtain ⟨-, rfl⟩ | ⟨-, rfl | rfl⟩ := h <;> decide

/-- A command ends without error, or it raises one of its errors with nothing done but the draw of a free value. -/
theorem exec_completes_or_raises (i : Instr) (s t : State) (h : exec i s = .next t) :
    t.status = s.status.completed ∨ ∃ code d, Raises i code ∧ t = State.raise { s with draws := d } code := by
  obtain ⟨hash, d, -, rfl⟩ | ⟨n, d, -, rfl⟩ | ⟨out, n, -, rfl⟩ | ⟨hi, -, rfl⟩ | ⟨d, rfl, -, rfl⟩ := exec_cases i s t h
  · exact .inl rfl
  · exact .inl rfl
  · exact .inl rfl
  · exact .inr ⟨.lenRange, s.draws, hi.imp (⟨·, rfl⟩) (⟨·, .inl rfl⟩), rfl⟩
  · exact .inr ⟨.numRange, d, .inr ⟨rfl, .inr rfl⟩, rfl⟩

/-- Settles O22: a completed command has no code, a failed one has the code of an error that it can raise. -/
theorem errorsOfEachCommand : Obligations.ErrorsOfEachCommand := by
  intro i s t h
  obtain hdone | ⟨code, d, hraises, rfl⟩ := exec_completes_or_raises i s t h
  · simp [hdone]
  · have hcode := hraises.ne_none
    obtain ⟨rfl, rfl⟩ | ⟨rfl, hrange⟩ := hraises
    · simp
    · simp [hrange, hcode]

/-- Settles O24: a completed command has ERR = 0, and raising an error changes STATUS and PENDING only. -/
theorem failedCommandChangesOnlyStatus : Obligations.FailedCommandChangesOnlyStatus := by
  intro i s t h herr
  obtain hdone | ⟨code, d, -, rfl⟩ := exec_completes_or_raises i s t h
  · simp [hdone] at herr
  · rfl

end Sys2Proof.Machine

/-! Dropped writes (70_reset_and_hazards R232): what sets DROP, what clears it, and what leaves it alone. -/

namespace Sys2Proof.Machine

/-- A dropped write on a busy core leaves BUSY = 1, ERR and ERRCODE, and sets DROP. -/
theorem Status.dropped_of_busy (t : Status) (hbusy : t.busy = true) : t.dropped = ⟨true, t.err, true, t.code⟩ := by
  simp [Status.dropped, hbusy]

/-- A command completes or raises an error, and both keep DROP (60_exceptions R203, R206). -/
theorem exec_drop (i : Instr) (s t : State) (h : exec i s = .next t) : t.status.drop = s.status.drop := by
  obtain hdone | ⟨code, d, -, rfl⟩ := exec_completes_or_raises i s t h
  · rw [hdone, Status.completed_drop]
  · rfl

/-- A read draws a free value at most. -/
theorem State.busRead_status (s : State) (off : Offset) : (s.busRead off).2.status = s.status := by
  obtain hread | ⟨-, hread⟩ := s.busRead_state off <;> rw [hread]

/-- CMD stands at offset 0 alone (10_state R22). -/
theorem regAt_eq_cmd_iff (n : Nat) (off : Offset) : regAt n off = some .cmd ↔ off.toNat = 0x000 := by
  simp only [regAt, ite_eq_iff', reduceCtorEq, Option.some.injEq, imp_false, implies_true, true_and]
  omega

/-- An idle write at any offset but that of CMD keeps STATUS (20_memory R54). -/
theorem State.busWrite_idle_status (s : State) (off : Offset) (v : Word) (hidle : s.status.busy = false)
    (hoff : off.toNat ≠ 0x000) : (s.busWrite off v).status = s.status := by
  cases hr : regAt s.bufBytes off with
  | none => rw [s.busWrite_reserved off v hidle hr]
  | some r =>
    have hcmd : r ≠ .cmd := by
      rintro rfl
      exact hoff ((regAt_eq_cmd_iff _ off).mp hr)
    rw [s.busWrite_idle_register off r v hidle hr]
    exact ((s.writeReg_frame r v).2 hcmd).1

/-- A launch attempt clears DROP, taken or refused (60_exceptions R202). -/
theorem State.launch_drop (s : State) (c : Word) : (s.launch c).status.drop = false := by
  obtain ⟨i, -, htaken⟩ | ⟨e, -, hrefused⟩ := s.launch_cases c
  · rw [htaken, Status.launched_drop]
  · rw [hrefused, Status.illegalLaunch_drop]

/-- Settles O15: a write on a busy core is dropped; on an idle one only a write of CMD touches STATUS, as a launch
attempt, which clears DROP. -/
theorem busyWriteIsDropped : Obligations.BusyWriteIsDropped := by
  refine ⟨fun s off v hbusy => ?busyWrite, exec_drop, fun s off => ?read, fun s off v hidle _ hoff => ?idleWrite,
    fun s v hidle => ?launch⟩
  case busyWrite => rw [s.busWrite_busy off v hbusy, s.status.dropped_of_busy hbusy]
  case read => rw [s.busRead_status off]
  case idleWrite => rw [s.busWrite_idle_status off v hidle hoff]
  case launch => rw [s.busWrite_cmd v hidle, s.launch_drop]

end Sys2Proof.Machine

/-! The correspondence between words and commands (30_encoding R80 to R83), the register map (10_state R22), and reads of
the registers over the bus (20_memory R53 to R55). -/

namespace Sys2Proof.Machine

/-- Settles O2: a word that decodes is its command's word, by its two fields, and a command's word decodes to it. -/
theorem decodeInvertsEncode : Obligations.DecodeInvertsEncode := by
  intro c i
  constructor
  · exact eq_encode_of_decode_ok c i
  · rintro rfl
    exact decode_encode i

/-! ### The register map and the window -/

/-- The register map (10_state R22): at an aligned offset the register whose offset that is, a word of DBUF if it is
inside the buffer. -/
theorem regAt_eq_some_iff (n : Nat) (off : Offset) (r : Reg) (halign : off.toNat % 4 = 0) :
    regAt n off = some r ↔ off.toNat = r.offset ∧ ∀ i, r = .dbuf i → 4 * i < n := by
  cases r with
  | h i =>
    have hi := i.isLt
    simp only [regAt, ite_eq_iff', Option.some.injEq, reduceCtorEq, Reg.h.injEq, Fin.ext_iff, Fin.ofNat, Reg.offset,
      false_imp_iff, imp_false, implies_true, and_true]
    omega
  | blk j =>
    have hj := j.isLt
    simp only [regAt, ite_eq_iff', Option.some.injEq, reduceCtorEq, Reg.blk.injEq, Fin.ext_iff, Fin.ofNat, Reg.offset,
      false_imp_iff, imp_false, implies_true, and_true]
    omega
  | dbuf i =>
    simp only [regAt, ite_eq_iff', Option.some.injEq, reduceCtorEq, Reg.dbuf.injEq, Reg.offset, imp_false, forall_eq']
    omega
  | _ =>
    simp only [regAt, ite_eq_iff', Option.some.injEq, reduceCtorEq, Reg.offset, false_imp_iff, imp_false, implies_true,
      true_and, and_true]
    omega

/-- Settles O4: the map is the table of offsets, read backwards. -/
theorem registerMapMatchesOffsets : Obligations.RegisterMapMatchesOffsets := regAt_eq_some_iff

/-- Every register is word-aligned (10_state R22). -/
theorem Reg.offset_aligned (r : Reg) : r.offset % 4 = 0 := by
  cases r <;> simp only [Reg.offset] <;> omega

/-- At the offset of a register the map answers it, a word of DBUF if it is inside the buffer. -/
theorem regAt_of_offset {n : Nat} {off : Offset} {r : Reg} (hoff : off.toNat = r.offset)
    (hin : ∀ i, r = .dbuf i → 4 * i < n) : regAt n off = some r :=
  (regAt_eq_some_iff n off r (hoff ▸ r.offset_aligned)).mpr ⟨hoff, hin⟩

/-- `BASE` is aligned, so the window's offsets are the remainders of its addresses. -/
theorem windowOffset_eq_some_iff (addr : Nat) (off : Offset) :
    windowOffset addr = some off ↔ addr = busAddress off := by
  have hoff := off.isLt
  unfold windowOffset busAddress
  split
  · rw [Option.some.injEq, ← BitVec.toNat_inj, BitVec.toNat_ofNat]
    omega
  · simp only [reduceCtorEq, false_iff]
    omega

/-- Settles O16: `BASE` is a page number times 8192, and the platform's decode is the inverse of the bus address. -/
theorem windowCoversBaseTo8191 : Obligations.WindowCoversBaseTo8191 :=
  ⟨Nat.mul_mod_right 8192 _, windowOffset_eq_some_iff⟩

/-! ### Reads (R53) -/

/-- An idle read at the offset of a register returns it, a word of DBUF if it is inside the buffer. -/
theorem State.busRead_at_offset (s : State) (off : Offset) (r : Reg) (hidle : s.status.busy = false)
    (hoff : off.toNat = r.offset) (hin : ∀ i, r = .dbuf i → 4 * i < s.bufBytes) : (s.busRead off).1 = s.readReg r := by
  rw [s.busRead_idle_register off r hidle (regAt_of_offset hoff hin)]

/-- An idle read changes nothing (R60). -/
theorem State.busRead_idle_state (s : State) (off : Offset) (hidle : s.status.busy = false) :
    (s.busRead off).2 = s := by
  rw [s.busRead_idle off hidle]

/-- The low half of a 64-bit word is its remainder modulo 2^32. -/
theorem extractLsb_low_half_toNat (x : DWord) : (x.extractLsb' 0 32).toNat = x.toNat % 2 ^ 32 := by
  simp

/-- The high half of a 64-bit word is its quotient by 2^32. -/
theorem extractLsb_high_half_toNat (x : DWord) : (x.extractLsb' 32 32).toNat = x.toNat / 2 ^ 32 := by
  have hx := x.isLt
  rw [BitVec.extractLsb'_toNat, Nat.shiftRight_eq_div_pow, Nat.mod_eq_of_lt (by omega)]

/-- The zero extension of a field to a bus word keeps its number. -/
theorem setWidth_toNat_eq {n : Nat} (x : BitVec n) (hn : n ≤ 32) : (x.setWidth 32).toNat = x.toNat := by
  rw [BitVec.toNat_setWidth, Nat.mod_eq_of_lt (x.isLt.trans_le (Nat.pow_le_pow_right (by decide) hn))]

/-- Settles O6: the offset names the register, and the word read is the register's number. -/
theorem idleReadReturnsRegister : Obligations.IdleReadReturnsRegister := by
  intro s off hidle
  have hread (r : Reg) (hoff : off.toNat = r.offset) (hin : ∀ i, r ≠ .dbuf i) : (s.busRead off).1 = s.readReg r :=
    s.busRead_at_offset off r hidle hoff fun i hi => absurd hi (hin i)
  refine ⟨s.busRead_idle_state off hidle, fun h => ?cmd, fun h => ?len, fun h => ?numlen, fun h => ?numLo,
    fun h => ?numHi, fun i h => ?h, fun j h => ?blk⟩
  case cmd => exact hread .cmd h nofun
  case len => rw [hread .len h nofun]; exact setWidth_toNat_eq s.len (by decide)
  case numlen => rw [hread .numlen h nofun]; exact setWidth_toNat_eq s.numlen (by decide)
  case numLo => rw [hread .numLo h nofun]; exact extractLsb_low_half_toNat s.num
  case numHi => rw [hread .numHi h nofun]; exact extractLsb_high_half_toNat s.num
  case h => exact hread (.h i) h nofun
  case blk => exact hread (.blk j) h nofun

/-- A register whose read is defined while busy reads as it does while idle (10_state R40). -/
theorem State.busRead_defined (s : State) (off : Offset) (r : Reg) (hr : regAt s.bufBytes off = some r)
    (hdef : r.definedWhileBusy = true) : s.busRead off = (s.readReg r, s) := by
  simp [State.busRead, hr, hdef]

/-- STATUS is one of those registers. -/
theorem State.busRead_status_word (s : State) : s.busRead 0x004#13 = (s.readReg .status, s) :=
  s.busRead_defined _ .status (regAt_statusOffset _) rfl

/-- The byte of STATUS, bit by bit (10_state R29). -/
theorem Status.byte_toNat (t : Status) : t.byte.toNat =
    t.busy.toNat + 2 * t.err.toNat + 4 * t.drop.toNat + 16 * t.code.bits.toNat := by
  obtain ⟨busy, err, drop, code⟩ := t
  revert busy err drop
  cases code <;> decide

/-- Settles O7: STATUS reads at every moment, as the sum of its bits. -/
theorem statusReadShowsItsFields : Obligations.StatusReadShowsItsFields := by
  intro s
  rw [s.busRead_status_word]
  refine (setWidth_toNat_eq s.status.byte (by decide)).trans ?_
  rw [s.status.byte_toNat]
  cases s.status.code <;> rfl

/-- Settles O14: each word read packs its bytes little-endian. -/
theorem encodeOutputPacksLittleEndian : Obligations.EncodeOutputPacksLittleEndian := by
  intro s hidle
  refine ⟨?_, ?_, ?_⟩
  · rw [s.busRead_at_offset _ .numout0 hidle rfl nofun]
    exact leWord_toNat _ _ _ _
  · rw [s.busRead_at_offset _ .numout1 hidle rfl nofun]
    exact leWord_toNat _ _ _ _
  · rw [s.busRead_at_offset _ .numout2 hidle rfl nofun]
    exact setWidth_toNat_eq s.numout[8] (by decide)

/-- A register whose read is not defined while busy then reads as a fresh free word while busy (10_state R40). -/
theorem State.busRead_busy_undefined (s : State) (off : Offset) (r : Reg) (hbusy : s.status.busy = true)
    (hr : regAt s.bufBytes off = some r) (hdef : r.definedWhileBusy = false) : s.busRead off = s.drawWord := by
  simp [State.busRead, hr, hdef, hbusy]

/-- Besides CMD, STATUS and PARAM no register is defined while busy. -/
theorem Reg.definedWhileBusy_eq_false {r : Reg} (hcmd : r ≠ .cmd) (hstatus : r ≠ .status) (hparam : r ≠ .param) :
    r.definedWhileBusy = false := by
  cases r <;> simp_all [Reg.definedWhileBusy]

/-- Settles O9: the three registers that stay defined, reserved space, and a draw for all others. -/
theorem busyReadIsUnspecifiedBesidesStatus : Obligations.BusyReadIsUnspecifiedBesidesStatus := by
  intro s off
  refine ⟨fun hbusy _ => ⟨fun h => ?status, fun h => ?param, fun h => ?cmd, s.busRead_reserved off,
    fun r hr hcmd hstatus hparam => ?undefined⟩, fun hidle r => s.busRead_idle_register off r hidle⟩
  case status => exact s.busRead_defined off .status (regAt_of_offset h nofun) rfl
  case param => exact s.busRead_defined off .param (regAt_of_offset h nofun) rfl
  case cmd => exact s.busRead_defined off .cmd (regAt_of_offset h nofun) rfl
  case undefined =>
    exact s.busRead_busy_undefined off r hbusy hr (Reg.definedWhileBusy_eq_false hcmd hstatus hparam)

end Sys2Proof.Machine

/-! What a register reads after a write of it, or of another (20_memory R53 to R57). -/

namespace Sys2Proof.Machine

/-! ### Bytes and halves of words -/

/-- Byte `m` of a word, as a number (20_memory R57). -/
theorem wordByte_toNat (w : Word) (m : Nat) : (wordByte w m).toNat = w.toNat / 2 ^ (8 * m) % 256 := by
  rw [wordByte, BitVec.extractLsb'_toNat, Nat.shiftRight_eq_div_pow]

/-- The four bytes of a word make the word. -/
theorem leWord_wordByte (w : Word) : leWord (wordByte w 0) (wordByte w 1) (wordByte w 2) (wordByte w 3) = w := by
  have hw := w.isLt
  apply BitVec.eq_of_toNat_eq
  simp only [leWord_toNat, wordByte_toNat]
  omega

/-- Byte `m` of word `i` of DBUF is byte `4i + m` of the buffer (20_memory R57). -/
theorem State.wordByte_dbufWord (s : State) (i m : Nat) (hm : m < 4) :
    wordByte (s.dbufWord i) m = s.dbufByte (4 * i + m) := by
  apply BitVec.eq_of_toNat_eq
  have h0 := (s.dbufByte (4 * i)).isLt
  have h1 := (s.dbufByte (4 * i + 1)).isLt
  have h2 := (s.dbufByte (4 * i + 2)).isLt
  have h3 := (s.dbufByte (4 * i + 3)).isLt
  rw [wordByte_toNat, State.dbufWord, leWord_toNat]
  interval_cases m
  · change _ = (s.dbufByte (4 * i)).toNat
    omega
  all_goals omega

/-- A byte of DBUF after a write of a word: the word's byte, or the byte as it was. -/
theorem State.dbufByte_setDbufWord (s : State) (i : Nat) (v : Word) (k : Nat) :
    (s.setDbufWord i v).dbufByte k = if k / 4 = i then wordByte v (k % 4) else s.dbufByte k := by
  unfold State.dbufByte
  rw [s.read_setDbufWord i v k]
  split_ifs <;> rfl

/-- A word of DBUF after a write of a word: the word written, or the word as it was. -/
theorem State.dbufWord_setDbufWord (s : State) (i : Nat) (v : Word) (j : Nat) :
    (s.setDbufWord i v).dbufWord j = if j = i then v else s.dbufWord j := by
  have hbyte (m : Nat) (hm : m < 4) :
      (s.setDbufWord i v).dbufByte (4 * j + m) = if j = i then wordByte v m else s.dbufByte (4 * j + m) := by
    rw [s.dbufByte_setDbufWord, show (4 * j + m) / 4 = j by omega, show (4 * j + m) % 4 = m by omega]
  have hbyte0 : (s.setDbufWord i v).dbufByte (4 * j) = if j = i then wordByte v 0 else s.dbufByte (4 * j) :=
    hbyte 0 (by decide)
  rw [State.dbufWord, hbyte0, hbyte 1 (by decide), hbyte 2 (by decide), hbyte 3 (by decide)]
  split
  · exact leWord_wordByte v
  · rfl

/-! ### A write and the registers -/

/-- The registers that hold every word the host writes (20_memory R54). -/
def Reg.HoldsWord : Reg → Prop
  | .numLo | .numHi | .h _ | .blk _ | .dbuf _ => True
  | .cmd | .status | .len | .numlen | .param | .numout0 | .numout1 | .numout2 => False

/-- Such a register reads as the word written to it. -/
theorem State.readReg_writeReg_same (s : State) (r : Reg) (v : Word) (hr : r.HoldsWord) :
    (s.writeReg r v).readReg r = v := by
  cases r with
  | numLo => exact BitVec.extractLsb'_append_eq_right
  | numHi => exact BitVec.extractLsb'_append_eq_left
  | h i => exact Vector.getElem_set_self ..
  | blk j => exact Vector.getElem_set_self ..
  | dbuf i => exact (s.dbufWord_setDbufWord i v i).trans (if_pos rfl)
  | _ => cases hr

/-- LEN reads as the low half of the word written to it. -/
theorem State.readReg_writeReg_len (s : State) (v : Word) :
    ((s.writeReg .len v).readReg .len).toNat = v.toNat % 2 ^ 16 := by
  rw [State.readReg, setWidth_toNat_eq _ (by decide)]
  simp [State.writeReg]

/-- A write of a register other than CMD leaves every other register as it was (20_memory R54). -/
theorem State.readReg_writeReg_other (s : State) (r r' : Reg) (v : Word) (hcmd : r ≠ .cmd) (hne : r' ≠ r) :
    (s.writeReg r v).readReg r' = s.readReg r' := by
  cases r with
  | cmd => exact absurd rfl hcmd
  | len => cases r' with
    | len => exact absurd rfl hne
    | _ => rfl
  | numLo => cases r' with
    | numLo => exact absurd rfl hne
    | numHi => exact BitVec.extractLsb'_append_eq_left
    | _ => rfl
  | numHi => cases r' with
    | numLo => exact BitVec.extractLsb'_append_eq_right
    | numHi => exact absurd rfl hne
    | _ => rfl
  | h i => cases r' with
    | h j => exact Vector.getElem_set_ne i.isLt j.isLt fun hij => hne (congrArg Reg.h (Fin.ext hij.symm))
    | _ => rfl
  | blk i => cases r' with
    | blk j => exact Vector.getElem_set_ne i.isLt j.isLt fun hij => hne (congrArg Reg.blk (Fin.ext hij.symm))
    | _ => rfl
  | dbuf i => cases r' with
    | dbuf j => exact (s.dbufWord_setDbufWord i v j).trans (if_neg fun hij => hne (congrArg Reg.dbuf hij))
    | _ => rfl
  | _ => rfl

/-- A register write but that of CMD leaves an idle core idle, so a read after it returns a register. -/
theorem State.busRead_busWrite (s : State) (off off' : Offset) (r r' : Reg) (v : Word) (hidle : s.status.busy = false)
    (hcmd : r ≠ .cmd) (hr : regAt s.bufBytes off = some r) (hr' : regAt s.bufBytes off' = some r') :
    ((s.busWrite off v).busRead off').1 = (s.writeReg r v).readReg r' := by
  obtain ⟨hbuf, hframe⟩ := s.writeReg_frame r v
  have hidle' : (s.writeReg r v).status.busy = false := by rw [(hframe hcmd).1, hidle]
  rw [s.busWrite_idle_register off r v hidle hr, State.busRead_idle_register _ off' r' hidle' (hbuf ▸ hr')]

/-- The offsets of the registers that hold every word written (R54). -/
theorem exists_holdsWord_of_offset (n : Nat) (off : Offset) (halign : off.toNat % 4 = 0)
    (hoff : off.toNat = 0x010 ∨ off.toNat = 0x014 ∨ (0x020 ≤ off.toNat ∧ off.toNat < 0x080) ∨
      (0x1000 ≤ off.toNat ∧ off.toNat < 0x1000 + n)) :
    ∃ r, regAt n off = some r ∧ r.HoldsWord := by
  cases hr : regAt n off with
  | none =>
    have hreserved := (regAt_eq_none_iff n off halign).mp hr
    omega
  | some r =>
    obtain ⟨ho, -⟩ := (regAt_eq_some_iff n off r halign).mp hr
    refine ⟨r, rfl, ?_⟩
    cases r with
    | numLo | numHi | h _ | blk _ | dbuf _ => trivial
    | _ =>
      simp only [Reg.offset] at ho
      omega

/-- Settles O11: the offset names a register that reads back what was written to it. -/
theorem writtenRegisterReadsBack : Obligations.WrittenRegisterReadsBack := by
  intro s off v hidle halign
  refine ⟨fun hoff => ?len, fun hoff => ?word⟩
  case len =>
    have hr : regAt s.bufBytes off = some .len := regAt_of_offset hoff nofun
    rw [s.busRead_busWrite off off .len .len v hidle nofun hr hr, s.readReg_writeReg_len]
  case word =>
    obtain ⟨r, hr, hword⟩ := exists_holdsWord_of_offset s.bufBytes off halign hoff
    have hcmd : r ≠ .cmd := by
      rintro rfl
      exact hword
    rw [s.busRead_busWrite off off r r v hidle hcmd hr hr, s.readReg_writeReg_same r v hword]

/-- Settles O12: in reserved space there is no register to write or to read, and two offsets name two registers. -/
theorem writeLeavesOtherWordsAlone : Obligations.WriteLeavesOtherWordsAlone := by
  intro s off off' v hidle halign halign' hoff hne
  cases hr : regAt s.bufBytes off with
  | none =>
    rw [s.busWrite_reserved off v hidle hr]
    exact ⟨rfl, rfl, rfl⟩
  | some r =>
    obtain ⟨ho, -⟩ := (regAt_eq_some_iff _ off r halign).mp hr
    have hcmd : r ≠ .cmd := by
      rintro rfl
      exact hoff ho
    obtain ⟨hbuf, hframe⟩ := s.writeReg_frame r v
    obtain ⟨hstatus, hpending⟩ := hframe hcmd
    have hwrite := s.busWrite_idle_register off r v hidle hr
    refine ⟨?read, by rw [hwrite, hpending], by rw [hwrite, hstatus]⟩
    cases hr' : regAt s.bufBytes off' with
    | none => rw [hwrite, s.busRead_reserved off' hr', State.busRead_reserved _ off' (hbuf ▸ hr')]
    | some r' =>
      obtain ⟨ho', -⟩ := (regAt_eq_some_iff _ off' r' halign').mp hr'
      have hother : r' ≠ r := by
        rintro rfl
        exact hne (BitVec.eq_of_toNat_eq (ho.trans ho'.symm))
      rw [s.busRead_busWrite off off' r r' v hidle hcmd hr hr', s.readReg_writeReg_other r r' v hcmd hother,
        s.busRead_idle_register off' r' hidle hr']

/-! ### DBUF (R55, R57) -/

/-- The offset of a word of DBUF inside a buffer of a legal size. -/
theorem regAt_dbufOffset (n i : Nat) (hn : Config.ValidBufBytes n) (hi : 4 * i < n) :
    regAt n (BitVec.ofNat 13 (0x1000 + 4 * i)) = some (.dbuf i) := by
  obtain ⟨-, hmax, -⟩ := hn
  have hoff : (BitVec.ofNat 13 (0x1000 + 4 * i)).toNat = 0x1000 + 4 * i := Nat.mod_eq_of_lt (by omega)
  refine regAt_of_offset hoff fun j hj => ?_
  cases hj
  exact hi

/-- A written byte of DBUF reads as what was written. -/
theorem State.dbufByte_of_read (s : State) (k : Nat) (b : Byte) (h : Memory.read s.dbuf k = some b) :
    s.dbufByte k = b := by
  rw [State.dbufByte, h]

/-- Settles O13: byte k is byte `k mod 4` of word `k / 4`, in the write and in the read. -/
theorem bufferWordPacksLittleEndian : Obligations.BufferWordPacksLittleEndian := by
  intro s k v hidle hvalid hk
  have hr : regAt s.bufBytes (BitVec.ofNat 13 (0x1000 + 4 * (k / 4))) = some (.dbuf (k / 4)) :=
    regAt_dbufOffset _ _ hvalid (by omega)
  have hwrite : s.busWrite (BitVec.ofNat 13 (0x1000 + 4 * (k / 4))) v = s.setDbufWord (k / 4) v :=
    s.busWrite_idle_register _ _ v hidle hr
  rw [hwrite, s.busRead_idle_register _ _ hidle hr]
  refine ⟨⟨wordByte v (k % 4), ?written, wordByte_toNat v _⟩, fun k' hk' => ?others, fun b hb => ?read⟩
  case written => rw [s.read_setDbufWord, if_pos rfl]
  case others => rw [s.read_setDbufWord, if_neg hk']
  case read =>
    calc (s.dbufWord (k / 4)).toNat / 2 ^ (8 * (k % 4)) % 256
      _ = (s.dbufByte (4 * (k / 4) + k % 4)).toNat := by
        rw [← wordByte_toNat, s.wordByte_dbufWord _ _ (Nat.mod_lt k (by decide))]
      _ = b.toNat := by rw [Nat.div_add_mod, s.dbufByte_of_read k b hb]

end Sys2Proof.Machine

/-! The commands: that each completes, what each leaves alone, and the operand and the result of SHA_HASH and NUM_DECODE
(30_encoding R82, 40_sha256 R142, 41_numcodec R170). -/

namespace Sys2Proof.Machine

open Sys2Proof.Claims

/-! ### Every command (R203, R206, 20_memory R69) -/

/-- A command ends with BUSY = 0 and no command pending, whether it completes or raises an error. -/
theorem exec_ends_idle (i : Instr) (s t : State) (h : exec i s = .next t) :
    t.status.busy = false ∧ t.pending = none := by
  obtain ⟨_, _, -, rfl⟩ | ⟨_, _, -, rfl⟩ | ⟨_, _, -, rfl⟩ | ⟨-, -, rfl⟩ | ⟨_, -, -, rfl⟩ := exec_cases i s t h <;>
    exact ⟨rfl, rfl⟩

/-- No command stops. -/
theorem exec_next (i : Instr) (s : State) : ∃ t, exec i s = .next t := by
  cases i with
  | shaInit => exact ⟨_, exec_shaInit s⟩
  | shaCompress => exact ⟨_, exec_shaCompress s⟩
  | shaHash =>
    simp only [exec, execShaHash]
    split
    · exact ⟨_, rfl⟩
    · split <;> exact ⟨_, rfl⟩
  | numDecode =>
    simp only [exec, execNumDecode]
    split
    · exact ⟨_, rfl⟩
    · split <;> exact ⟨_, rfl⟩
  | numEncode => exact ⟨_, exec_numEncode s⟩

/-- Settles O21: no command stops, and each ends idle. -/
theorem everyCommandEndsIdle : Obligations.EveryCommandEndsIdle := by
  intro i s
  obtain ⟨t, ht⟩ := exec_next i s
  exact ⟨t, ht, exec_ends_idle i s t ht⟩

/-- Settles O25: in each way a command can end, DBUF and the other fields are those of the state it began in. -/
theorem commandsLeaveOperandsAlone : Obligations.CommandsLeaveOperandsAlone := by
  intro i s t h
  obtain ⟨_, _, -, rfl⟩ | ⟨_, _, -, rfl⟩ | ⟨_, _, -, rfl⟩ | ⟨-, -, rfl⟩ | ⟨_, -, -, rfl⟩ := exec_cases i s t h <;>
    exact ⟨fun _ => ⟨rfl, rfl⟩, rfl, rfl, rfl, rfl, rfl, rfl, rfl, rfl, rfl, rfl⟩

/-- Settles O26: a result register is written only at the end that belongs to its commands. -/
theorem commandsWriteOnlyTheirResult : Obligations.CommandsWriteOnlyTheirResult := by
  intro i s t h
  obtain ⟨hash, d, hi, rfl⟩ | ⟨n, d, rfl, rfl⟩ | ⟨out, n, rfl, rfl⟩ | ⟨-, -, rfl⟩ | ⟨d, -, -, rfl⟩ := exec_cases i s t h
  · refine ⟨fun hcodec => ?_, fun _ => rfl, fun _ => ⟨rfl, rfl⟩⟩
    obtain rfl | rfl | rfl := hi <;> simp at hcodec
  · exact ⟨fun _ => rfl, fun hne => absurd rfl hne, fun _ => ⟨rfl, rfl⟩⟩
  · exact ⟨fun _ => rfl, fun _ => rfl, fun hne => absurd rfl hne⟩
  · exact ⟨fun _ => rfl, fun _ => rfl, fun _ => ⟨rfl, rfl⟩⟩
  · exact ⟨fun _ => rfl, fun _ => rfl, fun _ => ⟨rfl, rfl⟩⟩

/-! ### The operand in DBUF -/

/-- LEN_RANGE is the test of LEN against `BUF_BYTES` (60_exceptions R201). -/
theorem State.lenOutOfRange_iff (s : State) : s.lenOutOfRange = true ↔ s.bufBytes < s.len.toNat := by
  simp [State.lenOutOfRange]

/-- With LEN inside the buffer there is no LEN_RANGE. -/
theorem State.lenOutOfRange_eq_false (s : State) (hlen : s.len.toNat ≤ s.bufBytes) : s.lenOutOfRange = false := by
  simpa [State.lenOutOfRange] using hlen

/-- The operand is not read exactly when a byte of it was never written. -/
theorem State.operandBytes_eq_none_iff (s : State) : s.operandBytes = none ↔ OperandUnwritten s := by
  simp [State.operandBytes, OperandUnwritten, Memory.readString_eq_none]

/-- SHA_HASH with LEN out of range raises LEN_RANGE. -/
theorem exec_shaHash_lenRange (s : State) (hlen : s.bufBytes < s.len.toNat) :
    exec .shaHash s = .next (s.raise .lenRange) := by
  simp [exec, execShaHash, s.lenOutOfRange_iff.mpr hlen]

/-- NUM_DECODE with LEN out of range raises LEN_RANGE. -/
theorem exec_numDecode_lenRange (s : State) (hlen : s.bufBytes < s.len.toNat) :
    exec .numDecode s = .next (s.raise .lenRange) := by
  simp [exec, execNumDecode, s.lenOutOfRange_iff.mpr hlen]

/-- Settles O23: the test of LEN comes before DBUF is read. -/
theorem lenRangeComesFirst : Obligations.LenRangeComesFirst :=
  fun s hlen => ⟨exec_numDecode_lenRange s hlen, exec_shaHash_lenRange s hlen⟩

/-! ### SHA_HASH (R142) and the digest (R133) -/

/-- SHA_HASH on an operand with an unwritten byte completes with a free hash state. -/
theorem exec_shaHash_of_unwritten (s : State) (hlen : s.len.toNat ≤ s.bufBytes) (hu : OperandUnwritten s) :
    exec .shaHash s = .next (State.complete { s.drawHash.2 with h := s.drawHash.1 }) := by
  simp [exec, execShaHash, s.lenOutOfRange_eq_false hlen, s.operandBytes_eq_none_iff.mpr hu]

/-- Settles O36: the three ends of SHA_HASH, by LEN and by what of the operand is written. -/
theorem shaHashHashesItsOperand : Obligations.ShaHashHashesItsOperand :=
  ⟨decode_encode .shaHash, fun s => ⟨exec_shaHash_lenRange s, fun hlen m hm => exec_shaHash_of_operandIs s m hlen hm,
    fun hlen hu => ⟨s.drawHash.1, s.draws + 8, exec_shaHash_of_unwritten s hlen hu⟩⟩⟩

/-- A state with the same LEN and the same bytes below it has the same operand. -/
theorem operandIs_congr {s s' : State} {m : List Byte} (hm : OperandIs s m) (hlen : s'.len = s.len)
    (hbytes : ∀ k, k < s.len.toNat → Memory.read s'.dbuf k = Memory.read s.dbuf k) : OperandIs s' m := by
  obtain ⟨hl, hr⟩ := hm
  exact ⟨hlen ▸ hl, fun k hk => (hbytes k (hl ▸ hk)).trans (hr k hk)⟩

/-- Settles O37: both runs end with the hash state of the one operand. -/
theorem shaHashReadsOnlyItsOperand : Obligations.ShaHashReadsOnlyItsOperand := by
  intro s s' m hin hin' hlen hm hbytes
  exact ⟨_, _, exec_shaHash_of_operandIs s m hin hm,
    exec_shaHash_of_operandIs s' m hin' (operandIs_congr hm hlen hbytes), rfl⟩

/-- A word's big-endian representation has four bytes (00_scope R7). -/
@[simp] theorem be32_length (w : Word) : (be32 w).length = 4 := rfl

/-- Byte `k` of a word's big-endian representation (00_scope R7). -/
theorem be32_getD_toNat (w : Word) (k : Nat) (hk : k < 4) :
    ((be32 w).getD k 0).toNat = w.toNat / 2 ^ (24 - 8 * k) % 256 := by
  interval_cases k <;> exact (BitVec.extractLsb'_toNat ..).trans (by rw [Nat.shiftRight_eq_div_pow])

/-- The big-endian bytes of a list of words, four to a word. -/
theorem flatMap_be32_length (ws : List Word) : (ws.flatMap be32).length = 4 * ws.length := by
  induction ws with
  | nil => rfl
  | cons w ws ih =>
    simp [ih]
    omega

/-- Byte `4i + k` of them is byte `k` of word `i`. -/
theorem flatMap_be32_getD (ws : List Word) (i k : Nat) (hi : i < ws.length) (hk : k < 4) :
    (ws.flatMap be32).getD (4 * i + k) 0 = (be32 ws[i]).getD k 0 := by
  induction ws generalizing i with
  | nil => cases hi
  | cons w ws ih =>
    rw [List.flatMap_cons]
    cases i with
    | zero => rw [List.getD_append _ _ _ _ (by simpa using hk)]; simp
    | succ i =>
      rw [List.getD_append_right _ _ _ _ (by simp; omega), be32_length,
        show 4 * (i + 1) + k - 4 = 4 * i + k by omega, ih i (by simpa using hi)]
      rfl

/-- Settles O39: byte `4i + k` of the digest is byte `k` of `H[i]`. -/
theorem digestIsBigEndian : Obligations.DigestIsBigEndian := by
  intro h
  refine ⟨by rw [digest, flatMap_be32_length, Vector.length_toList], fun i k hk => ?_⟩
  rw [digest, flatMap_be32_getD h.toList i k (by simp) hk, be32_getD_toNat _ k hk, Vector.getElem_toList]
  rfl

/-! ### The codec (R162, 00_scope R9) -/

/-- Settles O41: the last byte without its sign counts as it did, the zeros count nothing, and the sign byte holds only
the sign. -/
theorem nonMinimalEncodingsDecodeAlike : Obligations.NonMinimalEncodingsDecodeAlike := by
  intro b last n
  have hmagnitude : leValue (b ++ [last &&& 0x7F#8] ++ List.replicate n 0#8) =
      leValue b + last.toNat % 128 * 256 ^ b.length := by
    have hlast : leValue [last &&& 0x7F#8] = last.toNat % 128 := and_7F_toNat last
    rw [leValue_append, leValue_append, leValue_zeros, hlast, Nat.mul_zero, Nat.add_zero, Nat.mul_comm]
  rw [scriptDecode_append, scriptDecode_append, hmagnitude, and_80_toNat]
  split <;> simp

/-- The word of the two's complement of an `s64` value has that signed value (00_scope R9). -/
theorem sint64_twos64 (v : Int) (hlo : -2 ^ 63 ≤ v) (hhi : v ≤ 2 ^ 63 - 1) : sint64 (twos64 v) = v := by
  have hnat : ((twos64 v).toNat : Int) = v % 2 ^ 64 := by
    rw [twos64, BitVec.toNat_ofInt]
    omega
  unfold sint64
  split <;> omega

/-- A 64-bit word is the two's complement of its signed value (00_scope R9). -/
theorem twos64_sint64 (x : DWord) : twos64 (sint64 x) = x := by
  have hx := x.isLt
  apply BitVec.eq_of_toNat_eq
  rw [twos64, BitVec.toNat_ofInt, sint64]
  split <;> omega

/-- Settles O46: the two readings are inverse in both directions. -/
theorem twosComplementRoundTrip : Obligations.TwosComplementRoundTrip :=
  ⟨sint64_twos64, fun x => ⟨twos64_sint64 x, sint64_range x⟩⟩

/-! ### NUM_DECODE (R170) -/

/-- NUM_DECODE of a written operand ends with its exact value. -/
theorem exec_numDecode_of_operandIs (s : State) (b : List Byte) (hlen : s.len.toNat ≤ s.bufBytes)
    (hb : OperandIs s b) : exec .numDecode s = .next (s.finishDecode (scriptDecode b)) := by
  simp [exec, execNumDecode, s.lenOutOfRange_eq_false hlen, (s.operandBytes_eq_some_iff b).mpr hb]

/-- NUM_DECODE of an operand with an unwritten byte ends with a free value. -/
theorem exec_numDecode_of_unwritten (s : State) (hlen : s.len.toNat ≤ s.bufBytes) (hu : OperandUnwritten s) :
    exec .numDecode s = .next (s.drawInt.2.finishDecode s.drawInt.1) := by
  simp [exec, execNumDecode, s.lenOutOfRange_eq_false hlen, s.operandBytes_eq_none_iff.mpr hu]

/-- Settles O47: the ends of NUM_DECODE, by LEN, by what of the operand is written, and by the range of its value. -/
theorem numDecodeWritesExactValue : Obligations.NumDecodeWritesExactValue := by
  refine ⟨decode_encode .numDecode, fun s => ⟨exec_numDecode_lenRange s, fun hlen b hb => ⟨fun hin => ?inRange,
    fun hout => ?outOfRange⟩, fun hlen hu => ⟨s.draws + 1, ?unwritten⟩⟩⟩
  case inRange =>
    obtain ⟨hlo, hhi⟩ := hin
    refine ⟨twos64 (scriptDecode b), sint64_twos64 _ hlo hhi, ?_⟩
    rw [exec_numDecode_of_operandIs s b hlen hb, s.finishDecode_inRange _ ⟨hlo, hhi⟩]
    rfl
  case outOfRange =>
    rw [exec_numDecode_of_operandIs s b hlen hb, s.finishDecode_outOfRange _ hout]
    rfl
  case unwritten =>
    rw [exec_numDecode_of_unwritten s hlen hu]
    obtain ⟨-, hdone⟩ | ⟨-, hrange⟩ := s.drawInt.2.finishDecode_cases s.drawInt.1
    · exact .inl ⟨_, congrArg _ hdone⟩
    · exact .inr (congrArg _ hrange)

/-- A state whose DBUF holds the bytes NUM_ENCODE leaves for `x`, with their number in LEN, has the encoding as its
operand. -/
theorem operandIs_of_encodeOut (u : State) (x : DWord)
    (hlen : u.len.toNat = (scriptEncode (sint64 x)).length)
    (hbytes : ∀ k : Fin 9, k.val < (scriptEncode (sint64 x)).length →
      Memory.read u.dbuf k = some (encodeOut (scriptEncode (sint64 x)))[k]) :
    OperandIs u (scriptEncode (sint64 x)) := by
  obtain ⟨hlo, hhi⟩ := sint64_range x
  have hnine := scriptEncode_length_le_nine _ hlo hhi
  refine ⟨hlen.symm, fun k hk => ?_⟩
  rw [hbytes ⟨k, by omega⟩ hk, encodeOut_getElem, List.getD_eq_getElem _ 0 hk]

/-- Settles O49: the operand is the encoding of the signed value of NUM, which decodes to it. -/
theorem codecRoundTripThroughMachine : Obligations.CodecRoundTripThroughMachine := by
  intro s t u hexec hvalid hlen hbytes
  rw [exec_numEncode] at hexec
  cases hexec
  have hlen' : u.len.toNat = (scriptEncode (sint64 s.num)).length := hlen.trans (numlen_toNat s.num)
  have hop : OperandIs u (scriptEncode (sint64 s.num)) :=
    operandIs_of_encodeOut u s.num hlen' fun k hk => hbytes k (by rwa [← numlen_toNat] at hk)
  have hrange := sint64_range s.num
  have hnine := scriptEncode_length_le_nine _ hrange.1 hrange.2
  obtain ⟨hmin, -, -⟩ := hvalid
  have hfits : u.len.toNat ≤ u.bufBytes := by
    simp only [Config.maxElementSize] at hmin
    omega
  rw [exec_numDecode_of_operandIs u _ hfits hop, scriptDecode_scriptEncode, u.finishDecode_inRange _ hrange,
    twos64_sint64]
  rfl

end Sys2Proof.Machine

/-! The steps of the agents (10_state R20): whose step it is, the core's completion, the host's lines, what moves BUSY,
and reset (30_encoding R90, R91, 60_exceptions R206, 70_reset_and_hazards R230). -/

namespace Sys2Proof.Machine

/-! ### Whose step it is -/

/-- On the host's turn the step is the host's. -/
theorem step_host (s : State) (h : s.nextTurn = .host) : step s = hostStep s.takeTurn := by
  rw [step, h]
  rfl

/-- On the core's turn the step is the core's. -/
theorem step_core (s : State) (h : s.nextTurn = .core) : step s = coreStep s.takeTurn := by
  rw [step, h]
  rfl

/-- On the turn of an assertion of reset the step is that. -/
theorem step_assertReset (s : State) (h : s.nextTurn = .assertReset) : step s = .next (assertResetStep s.takeTurn) := by
  rw [step, h]
  rfl

/-- On the turn of a release of reset the step is that. -/
theorem step_releaseReset (s : State) (h : s.nextTurn = .releaseReset) :
    step s = .next (releaseResetStep s.takeTurn) := by
  rw [step, h]
  rfl

/-! ### The core's step (60_exceptions R206) -/

/-- While busy the core runs the command in PENDING. -/
theorem coreStep_pending (s : State) (c : Word) (i : Instr) (hbusy : s.status.busy = true) (hc : s.pending = some c)
    (hi : decode c = .ok i) : coreStep s = exec i s := by
  simp [coreStep, hbusy, hc, hi]

/-- While idle the core's turn passes. -/
theorem coreStep_idle (s : State) (hidle : s.status.busy = false) : coreStep s = .next s := by
  simp [coreStep, hidle]

/-- Settles O18: the turn taken leaves BUSY and PENDING, and the core runs what PENDING holds. -/
theorem coreStepRunsThePendingCommand : Obligations.CoreStepRunsThePendingCommand := by
  intro s c i hturn hbusy hc hi
  rw [step_core s hturn, coreStep_pending s.takeTurn c i hbusy hc hi]
  rfl

/-- Settles O20: an idle core has nothing to complete. -/
theorem idleCoreDoesNothing : Obligations.IdleCoreDoesNothing := by
  intro s hturn hidle
  rw [step_core s hturn, coreStep_idle s.takeTurn hidle]
  rfl

/-- A 32-bit word of the opcode table is read by the decoder of command words. -/
theorem decode_of_decodeTableWord (w : Nat) (i : Instr) (h : decodeTableWord 32 w = some i) :
    decode (BitVec.ofNat 32 (w % 2 ^ 32)) = .ok i := by
  simp only [decodeTableWord, lt_irrefl, if_false] at h
  split at h
  · next j hj =>
    obtain rfl : j = i := by simpa using h
    exact hj
  · cases h

/-- Settles O19: with a word fetched it is the core's turn, with that word in PENDING. -/
theorem fetchedWordRunsNext : Obligations.FetchedWordRunsNext := by
  intro s w i hi
  refine ⟨(s.withFetchWord 32 w).takeTurn, ?_, rfl, rfl, rfl, rfl, rfl, rfl, rfl, rfl⟩
  rw [step_core _ rfl]
  exact coreStep_pending _ _ i rfl rfl (decode_of_decodeTableWord w i hi)

/-! ### The host's lines (30_encoding R90, R91) -/

/-- On the host's turn, with reset not asserted, a bus line makes its request and binds the word read. -/
theorem step_bus_next (s : State) (r : BusRequest) (dst : Option String) (rest : List HostLine)
    (hturn : s.nextTurn = .host) (hrst : s.rst = false) (hp : s.program = .bus r dst :: rest) :
    step s = .next (({ s with turns := s.turns.tail, program := rest }.request r).bind dst
      ({ s with turns := s.turns.tail, program := rest }.request r).respData) :=
  (step_bus s r dst rest hturn hp).trans (hostAccess_next _ r dst hrst)

/-- On the host's turn a POLL line is a read of STATUS; it stays the next line while that read shows BUSY = 1. -/
theorem step_poll (s : State) (dst : String) (rest : List HostLine) (hturn : s.nextTurn = .host)
    (hp : s.program = .poll dst :: rest) : step s = hostAccess
      { s with
        turns := s.turns.tail,
        program := if (s.takeTurn.request statusRead).respData.getLsbD 0 then .poll dst :: rest else rest }
      statusRead (some dst) := by
  rw [step_host s hturn]
  simp only [hostStep, State.takeTurn, hp]

/-- A read of STATUS is answered with its value, in every state, and changes nothing but the response. -/
theorem State.request_statusRead (s : State) :
    s.request statusRead = { s with resp := some ⟨some (s.readReg .status), false⟩ } := by
  have hlegal : statusRead.legal = true := rfl
  have hread : s.busRead statusRead.off = (s.readReg .status, s) := s.busRead_status_word
  rw [State.request, if_pos hlegal, hread]
  rfl

/-- BUSY is bit 0 of STATUS (10_state R29). -/
@[simp] theorem Status.byte_bit0 (t : Status) : t.byte[0] = t.busy := by
  simp only [Status.byte, ← BitVec.getLsbD_eq_getElem, BitVec.getLsbD_append]
  simp

/-- BUSY is bit 0 of the word that STATUS reads as. -/
theorem State.readReg_status_bit0 (s : State) : (s.readReg .status).getLsbD 0 = s.status.busy := by
  simp [State.readReg]

/-- Settles O54: the line's read is answered at once with STATUS, of which bit 0 is BUSY. -/
theorem pollRepeatsWhileBusy : Obligations.PollRepeatsWhileBusy := by
  intro s dst rest hturn hrst hp
  refine ⟨some ⟨some (s.readReg .status), false⟩, ?_⟩
  have hagain : (s.takeTurn.request statusRead).respData.getLsbD 0 = s.status.busy := by
    rw [State.request_statusRead]
    exact s.readReg_status_bit0
  rw [step_poll s dst rest hturn hp, hagain]
  refine Eq.trans (hostAccess_next _ _ _ hrst) ?_
  rw [State.request_statusRead]
  rfl

/-- Every register that stands in the window has its offset there (20_memory R50). -/
theorem Reg.offset_lt (r : Reg) (n : Nat) (hn : Config.ValidBufBytes n) (hin : ∀ i, r = .dbuf i → 4 * i < n) :
    r.offset < 2 ^ 13 := by
  obtain ⟨-, hmax, -⟩ := hn
  cases r with
  | dbuf i =>
    have hi := hin i rfl
    simp only [Reg.offset]
    omega
  | _ =>
    simp only [Reg.offset]
    omega

/-- The access of a WR or an RD line is legal, and its offset is the register's (20_memory R52). -/
theorem registerRequest_legal (r : Reg) (n : Nat) (a : Access) (hn : Config.ValidBufBytes n)
    (hin : ∀ i, r = .dbuf i → 4 * i < n) :
    BusRequest.legal ⟨BitVec.ofNat 13 r.offset, .word, a⟩ = true ∧ regAt n (BitVec.ofNat 13 r.offset) = some r := by
  have hoff : (BitVec.ofNat 13 r.offset).toNat = r.offset := Nat.mod_eq_of_lt (r.offset_lt n hn hin)
  exact ⟨(BusRequest.legal_iff _).mpr ⟨rfl, hoff.symm ▸ r.offset_aligned⟩, regAt_of_offset hoff hin⟩

/-- A legal write at a register's offset to an idle core writes the register. -/
theorem State.request_write_register (s : State) (q : BusRequest) (r : Reg) (v : Word) (hidle : s.status.busy = false)
    (hlegal : q.legal = true) (hr : regAt s.bufBytes q.off = some r) (ha : q.access = .write v) :
    s.request q = { s.writeReg r v with resp := some ⟨none, false⟩ } := by
  simp [State.request, hlegal, ha, s.busWrite_idle_register q.off r v hidle hr]

/-- A legal read at a register's offset of an idle core answers the register's value. -/
theorem State.request_read_register (s : State) (q : BusRequest) (r : Reg) (hidle : s.status.busy = false)
    (hlegal : q.legal = true) (hr : regAt s.bufBytes q.off = some r) (ha : q.access = .read) :
    s.request q = { s with resp := some ⟨some (s.readReg r), false⟩ } := by
  simp [State.request, hlegal, ha, s.busRead_idle_register q.off r hidle hr]

/-- Settles O53: the line's request is legal and reaches the register it names. -/
theorem hostLinesAccessTheirRegister : Obligations.HostLinesAccessTheirRegister := by
  intro s r rest hturn hrst hidle hvalid hin
  refine ⟨fun v hp => ⟨some ⟨none, false⟩, ?write⟩, fun name hp => ⟨some ⟨some (s.readReg r), false⟩, ?read⟩⟩
  case write =>
    obtain ⟨hlegal, hr⟩ := registerRequest_legal r s.bufBytes (.write v) hvalid hin
    rw [step_bus_next s _ _ rest hturn hrst hp,
      State.request_write_register { s with turns := s.turns.tail, program := rest } _ r v hidle hlegal hr rfl]
    rfl
  case read =>
    obtain ⟨hlegal, hr⟩ := registerRequest_legal r s.bufBytes .read hvalid hin
    rw [step_bus_next s _ _ rest hturn hrst hp,
      State.request_read_register { s with turns := s.turns.tail, program := rest } _ r hidle hlegal hr rfl]
    cases r <;> rfl

/-! ### What moves BUSY (10_state R29) -/

/-- Settles O27: while busy the host's step changes DROP and the host agent only. -/
theorem operandsAreFrozenWhileBusy : Obligations.OperandsAreFrozenWhileBusy := by
  intro s t hbusy hturn h
  rw [step_host s hturn] at h
  obtain ⟨_, _, _, _, _, _, rfl⟩ := hostStep_busy s.takeTurn t hbusy h
  exact ⟨rfl, rfl, fun _ => rfl, rfl, rfl, rfl, rfl, rfl, hbusy, rfl, rfl, rfl⟩

/-- The only write that makes an idle core busy is a launch of a command at the offset of CMD (R202). -/
theorem State.busWrite_sets_busy (s : State) (off : Offset) (v : Word) (hidle : s.status.busy = false)
    (hbusy : (s.busWrite off v).status.busy = true) :
    off.toNat = 0x000 ∧ ∃ i, decode v = .ok i ∧ (s.busWrite off v).pending = some v := by
  have hoff : off.toNat = 0x000 := by
    by_contra hne
    simp [s.busWrite_idle_status off v hidle hne, hidle] at hbusy
  obtain rfl : off = 0x000#13 := BitVec.eq_of_toNat_eq hoff
  rw [s.busWrite_cmd v hidle] at hbusy ⊢
  obtain ⟨i, hi, hlaunch⟩ | ⟨e, -, hlaunch⟩ := s.launch_cases v
  · exact ⟨hoff, i, hi, by rw [hlaunch]⟩
  · simp [hlaunch, hidle] at hbusy

/-- The only request that makes an idle core busy is a legal write of a command's word at the offset of CMD. -/
theorem State.request_sets_busy (s : State) (r : BusRequest) (hidle : s.status.busy = false)
    (hbusy : (s.request r).status.busy = true) :
    r.legal = true ∧ r.off.toNat = 0x000 ∧
      ∃ v i, r.access = .write v ∧ decode v = .ok i ∧ (s.request r).pending = some v := by
  obtain ⟨p, h⟩ | ⟨p, -, -, -, h⟩ | ⟨v, p, hlegal, ha, h⟩ := s.request_cases r <;> rw [h] at hbusy ⊢
  · simp [hidle] at hbusy
  · simp [hidle] at hbusy
  · obtain ⟨hoff, i, hi, hp⟩ := s.busWrite_sets_busy r.off v hidle hbusy
    exact ⟨hlegal, hoff, v, i, ha, hi, hp⟩

/-- The only line of the host that makes an idle core busy is such a request. -/
theorem hostStep_sets_busy (s t : State) (h : hostStep s = .next t) (hidle : s.status.busy = false)
    (hbusy : t.status.busy = true) : ∃ r dst rest v i, s.program = .bus r dst :: rest ∧ r.legal = true ∧
      r.off.toNat = 0x000 ∧ r.access = .write v ∧ decode v = .ok i ∧ t.pending = some v := by
  obtain ⟨-, rfl⟩ | ⟨e, rest, -, rfl⟩ | ⟨r, dst, rest, hp, ha⟩ | ⟨dst, rest, p, -, ha⟩ := hostStep_cases s t h
  · simp [hidle] at hbusy
  · simp [hidle] at hbusy
  · obtain ⟨-, rfl⟩ := hostAccess_cases _ _ _ _ ha
    rw [State.bind_status] at hbusy
    obtain ⟨hlegal, hoff, v, i, hw, hi, hpend⟩ := State.request_sets_busy { s with program := rest } r hidle hbusy
    exact ⟨r, dst, rest, v, i, hp, hlegal, hoff, hw, hi, by rw [State.bind_pending, hpend]⟩
  · obtain ⟨-, rfl⟩ := hostAccess_cases _ _ _ _ ha
    simp [State.request_statusRead, hidle] at hbusy

/-- Settles O28: agent by agent; the core's step and reset never set BUSY, and the host's step never clears it. -/
theorem onlyLaunchAndCompletionMoveBusy : Obligations.OnlyLaunchAndCompletionMoveBusy := by
  intro s t h
  obtain ⟨hturn, hh⟩ | ⟨hturn, hc⟩ | ⟨hturn, rfl⟩ | ⟨hturn, rfl⟩ := step_cases s t h
  · refine ⟨fun hidle hbusy => ⟨hturn, hostStep_sets_busy s.takeTurn t hh hidle hbusy⟩, fun hbusy hidle => ?_⟩
    obtain ⟨_, _, _, _, _, _, rfl⟩ := hostStep_busy s.takeTurn t hbusy hh
    simp [hbusy] at hidle
  · refine ⟨fun hidle hbusy => ?_, fun _ _ => .inl hturn⟩
    rw [coreStep_idle s.takeTurn hidle] at hc
    cases hc
    simp [hidle] at hbusy
  · exact ⟨fun _ hbusy => (by cases hbusy), fun _ _ => .inr (.inl hturn)⟩
  · obtain ⟨hrst, hrel⟩ | ⟨-, hrel⟩ := releaseResetStep_cases s.takeTurn <;> rw [hrel]
    · exact ⟨fun _ hbusy => (by cases hbusy), fun _ _ => .inr (.inr ⟨hturn, hrst⟩)⟩
    · exact ⟨fun hidle hbusy => (by simp [hidle] at hbusy), fun hbusy hidle => (by simp [hbusy] at hidle)⟩

/-! ### Reset (70_reset_and_hazards R230) -/

/-- Settles O51: assertion puts the reset values into the registers, and so does the release after it. -/
theorem resetAbandonsPendingCommand : Obligations.ResetAbandonsPendingCommand := by
  intro s ts hts
  have hassert := step_assertReset s (s.nextTurn_of_turns _ _ hts)
  have hts' : (assertResetStep s.takeTurn).turns = .releaseReset :: ts := congrArg List.tail hts
  have hrelease := step_releaseReset _ (State.nextTurn_of_turns _ _ _ hts')
  exact ⟨_, _, hassert, rfl, State.resetRegisters_atResetValues _ _, hrelease, rfl,
    State.resetRegisters_atResetValues _ _, rfl, congrArg List.tail hts', rfl, rfl⟩

/-- A bus access of the host comes next when it is the host's turn and its next line is a request or a POLL. -/
theorem State.accessNext_cases (s : State) (h : s.accessNext = true) : s.nextTurn = .host ∧
    ((∃ r dst rest, s.program = .bus r dst :: rest) ∨ ∃ dst rest, s.program = .poll dst :: rest) := by
  unfold State.accessNext at h
  split at h
  · next hturn hp => exact ⟨hturn, .inl ⟨_, _, _, hp⟩⟩
  · next hturn hp => exact ⟨hturn, .inr ⟨_, _, hp⟩⟩
  all_goals cases h

/-- While reset is asserted every access of the host stops. -/
theorem hostAccess_underReset (s : State) (r : BusRequest) (dst : Option String) (hrst : s.rst = true) :
    hostAccess s r dst = .fault .requestDuringReset := by
  rw [hostAccess, if_pos hrst]

/-- Settles O52: either line makes an access, and an access under reset stops. -/
theorem requestDuringResetStops : Obligations.RequestDuringResetStops := by
  intro s hrst hnext
  obtain ⟨hturn, ⟨r, dst, rest, hp⟩ | ⟨dst, rest, hp⟩⟩ := s.accessNext_cases hnext
  · rw [step_bus s r dst rest hturn hp]
    exact hostAccess_underReset _ r dst hrst
  · rw [step_poll s dst rest hturn hp]
    exact hostAccess_underReset _ statusRead (some dst) hrst

end Sys2Proof.Machine

/-! The invariant of the machine: every operation keeps it, so every step does; what follows from it, that a safe state
does not stop and that a pending command completes on the operands of its launch. -/

namespace Sys2Proof.Machine

/-! ### The invariant under the changes the operations are made of -/

/-- Reset values meet the invariant, with DBUF in canonical form and a legal `BUF_BYTES`. -/
theorem State.AtResetValues.inv {s : State} (h : s.AtResetValues) (hwf : Memory.wf s.dbuf = true)
    (hvalid : Config.ValidBufBytes s.bufBytes) : s.Inv where
  dbufCanonical := hwf
  dbufInside k b hb := by simp [h.dbuf k] at hb
  bufBytesValid := hvalid
  pendingValid hbusy := by simp [h.busy] at hbusy
  pendingNone _ := h.pending
  errHasCode := by simp [h.err, h.code]
  noErrWhileBusy _ := h.err
  numlenBound := by simp [h.numlen]
  numoutTail k _ := h.numout k
  resetHolds _ := h

/-- Settles O55: the reset state is at the reset values, with nothing written in DBUF and the default `BUF_BYTES`. -/
theorem resetMeetsInvariant : Obligations.ResetMeetsInvariant :=
  State.reset_atResetValues.inv rfl (State.reset_bufBytes ▸ validBufBytes_default)

/-- While a command is pending reset is not asserted. -/
theorem State.Inv.rst_of_busy {s : State} (h : s.Inv) (hbusy : s.status.busy = true) : s.rst = false := by
  by_contra hrst
  have hidle := (h.resetHolds (by simpa using hrst)).busy
  simp [hidle] at hbusy

/-- The invariant does not speak of the host agent, the response, the turns and the model's counters. -/
theorem State.Inv.setAgents {s : State} (h : s.Inv) (resp program names checks turns draws epoch) :
    State.Inv { s with resp, program, names, checks, turns, draws, epoch } :=
  State.Inv_of_registers_eq h rfl rfl rfl rfl rfl rfl rfl rfl rfl rfl rfl

/-- Unless reset is asserted the invariant does not speak of H, BLK, LEN and NUM. -/
theorem State.Inv.setOperands {s : State} (h : s.Inv) (hrst : s.rst = false) (hash blk len num) :
    State.Inv { s with h := hash, blk := blk, len := len, num := num } :=
  { h with resetHolds := fun hr => absurd (hrst.symm.trans hr) Bool.false_ne_true }

/-- Unless reset is asserted STATUS and PENDING may change together, as long as they agree. -/
theorem State.Inv.setStatus {s : State} (h : s.Inv) (hrst : s.rst = false) (status : Status) (pending : Option Word)
    (hvalid : status.busy = true → ∃ i, pending = some (encode i)) (hnone : status.busy = false → pending = none)
    (herr : status.err = true ↔ status.code ≠ .none) (hbusy : status.busy = true → status.err = false) :
    State.Inv { s with status, pending } :=
  { h with
    pendingValid := hvalid
    pendingNone := hnone
    errHasCode := herr
    noErrWhileBusy := hbusy
    resetHolds := fun hr => absurd (hrst.symm.trans hr) Bool.false_ne_true }

/-- Unless reset is asserted NUMOUT and NUMLEN may change to an encoding (10_state R28). -/
theorem State.Inv.setEncoding {s : State} (h : s.Inv) (hrst : s.rst = false) (x : DWord) :
    State.Inv { s with
      numlen := BitVec.ofNat 4 (scriptEncode (sint64 x)).length, numout := encodeOut (scriptEncode (sint64 x)) } :=
  { h with
    numlenBound := by
      obtain ⟨hlo, hhi⟩ := sint64_range x
      exact (numlen_toNat x).le.trans (scriptEncode_length_le_nine _ hlo hhi)
    numoutTail := fun k hk =>
      (encodeOut_getElem _ k).trans (List.getD_eq_default _ _ ((numlen_toNat x).symm.le.trans hk))
    resetHolds := fun hr => absurd (hrst.symm.trans hr) Bool.false_ne_true }

/-- Unless reset is asserted a word of DBUF inside the buffer may be written: the size of the buffer is a multiple of 4,
so the whole word is inside. -/
theorem State.Inv.setDbufWord {s : State} (h : s.Inv) (hrst : s.rst = false) (i : Nat) (v : Word)
    (hi : 4 * i < s.bufBytes) : (s.setDbufWord i v).Inv :=
  { h with
    dbufCanonical := s.wf_setDbufWord i v h.dbufCanonical
    dbufInside := by
      intro k b hb
      obtain ⟨-, -, hfour⟩ := h.bufBytesValid
      rw [s.read_setDbufWord i v k] at hb
      rw [s.setDbufWord_bufBytes]
      split at hb
      · omega
      · exact h.dbufInside k b hb
    resetHolds := fun hr => absurd (hrst.symm.trans hr) Bool.false_ne_true }

/-! ### The invariant under the operations and the agents' steps -/

/-- A launch attempt on an idle core keeps the invariant (60_exceptions R202). -/
theorem State.Inv.launch {s : State} (h : s.Inv) (hrst : s.rst = false) (hidle : s.status.busy = false) (c : Word) :
    (s.launch c).Inv := by
  obtain ⟨i, hi, htaken⟩ | ⟨e, -, hrefused⟩ := s.launch_cases c
  · rw [htaken]
    exact h.setStatus hrst s.status.launched (some c) (fun _ => ⟨i, congrArg some (eq_encode_of_decode_ok c i hi)⟩)
      nofun (by simp) (fun _ => rfl)
  · rw [hrefused]
    exact h.setStatus hrst s.status.illegalLaunch s.pending h.pendingValid h.pendingNone (by simp)
      (fun hbusy => absurd (hidle.symm.trans hbusy) Bool.false_ne_true)

/-- A register write on an idle core keeps the invariant, in DBUF if it is inside the buffer. -/
theorem State.Inv.writeReg {s : State} (h : s.Inv) (hrst : s.rst = false) (hidle : s.status.busy = false) (r : Reg)
    (v : Word) (hin : ∀ i, r = .dbuf i → 4 * i < s.bufBytes) : (s.writeReg r v).Inv := by
  obtain ⟨-, hw⟩ | ⟨-, hw⟩ | ⟨-, hw⟩ | ⟨-, hw⟩ | ⟨i, -, hw⟩ | ⟨j, -, hw⟩ | ⟨i, hr, hw⟩ | hw := s.writeReg_cases r v <;>
    rw [hw]
  · exact h.launch hrst hidle v
  · exact h.setOperands hrst s.h s.blk (v.extractLsb' 0 16) s.num
  · exact h.setOperands hrst s.h s.blk s.len (s.num.extractLsb' 32 32 ++ v)
  · exact h.setOperands hrst s.h s.blk s.len (v ++ s.num.extractLsb' 0 32)
  · exact h.setOperands hrst (s.h.set i v) s.blk s.len s.num
  · exact h.setOperands hrst s.h (s.blk.set j v) s.len s.num
  · exact h.setDbufWord hrst i v (hin i hr)
  · exact h

/-- A write at an aligned offset keeps the invariant (20_memory R54). -/
theorem State.Inv.busWrite {s : State} (h : s.Inv) (hrst : s.rst = false) (off : Offset) (v : Word)
    (halign : off.toNat % 4 = 0) : (s.busWrite off v).Inv := by
  cases hbusy : s.status.busy with
  | true =>
    rw [s.busWrite_busy off v hbusy]
    exact h.setStatus hrst s.status.dropped s.pending h.pendingValid h.pendingNone h.errHasCode h.noErrWhileBusy
  | false =>
    cases hr : regAt s.bufBytes off with
    | none => rwa [s.busWrite_reserved off v hbusy hr]
    | some r =>
      obtain ⟨-, hin⟩ := (regAt_eq_some_iff _ off r halign).mp hr
      rw [s.busWrite_idle_register off r v hbusy hr]
      exact h.writeReg hrst hbusy r v hin

/-- A request keeps the invariant: only a legal one writes. -/
theorem State.Inv.request {s : State} (h : s.Inv) (hrst : s.rst = false) (r : BusRequest) : (s.request r).Inv := by
  obtain ⟨p, hq⟩ | ⟨p, -, -, -, hq⟩ | ⟨v, p, hlegal, -, hq⟩ := s.request_cases r <;> rw [hq]
  · exact h.setAgents ..
  · exact h.setAgents ..
  · obtain ⟨-, halign⟩ := r.legal_iff.mp hlegal
    exact (h.busWrite hrst r.off v halign).setAgents ..

/-- A host access keeps the invariant. -/
theorem hostAccess_inv {s t : State} {r : BusRequest} {dst : Option String} (h : s.Inv)
    (ha : hostAccess s r dst = .next t) : t.Inv := by
  obtain ⟨hrst, rfl⟩ := hostAccess_cases s t r dst ha
  cases dst with
  | none => exact h.request hrst r
  | some n => exact (h.request hrst r).setAgents ..

/-- The host's step keeps the invariant. -/
theorem hostStep_inv {s t : State} (h : s.Inv) (hs : hostStep s = .next t) : t.Inv := by
  obtain ⟨-, rfl⟩ | ⟨e, rest, -, rfl⟩ | ⟨r, dst, rest, -, ha⟩ | ⟨dst, rest, p, -, ha⟩ := hostStep_cases s t hs
  · exact h
  · exact h.setAgents ..
  · exact hostAccess_inv (h.setAgents ..) ha
  · exact hostAccess_inv (h.setAgents ..) ha

/-- The end of a command without error keeps the invariant (60_exceptions R206). -/
theorem State.Inv.complete {s : State} (h : s.Inv) (hrst : s.rst = false) : s.complete.Inv :=
  h.setStatus hrst s.status.completed none nofun (fun _ => rfl) (by simp) nofun

/-- The end of a command with an error keeps the invariant (60_exceptions R203). -/
theorem State.Inv.raise {s : State} (h : s.Inv) (hrst : s.rst = false) (code : ErrCode) (hcode : code ≠ .none) :
    (s.raise code).Inv :=
  h.setStatus hrst (s.status.failed code) none nofun (fun _ => rfl) (by simpa using hcode) nofun

/-- Every command keeps the invariant. -/
theorem exec_inv {i : Instr} {s t : State} (h : s.Inv) (hrst : s.rst = false) (he : exec i s = .next t) : t.Inv := by
  obtain ⟨hash, d, -, rfl⟩ | ⟨n, d, -, rfl⟩ | ⟨out, n, rfl, -⟩ | ⟨-, -, rfl⟩ | ⟨d, -, -, rfl⟩ := exec_cases i s t he
  · exact ((h.setOperands hrst hash s.blk s.len s.num).setAgents ..).complete hrst
  · exact ((h.setOperands hrst s.h s.blk s.len n).setAgents ..).complete hrst
  · rw [exec_numEncode] at he
    cases he
    exact (h.setEncoding hrst s.num).complete hrst
  · exact h.raise hrst .lenRange nofun
  · exact State.Inv.raise (s := { s with draws := d }) (h.setAgents ..) hrst .numRange nofun

/-- The core's step keeps the invariant: a command that is pending runs out of reset. -/
theorem coreStep_inv {s t : State} (h : s.Inv) (hs : coreStep s = .next t) : t.Inv := by
  obtain ⟨-, rfl⟩ | ⟨c, i, hbusy, -, -, he⟩ := coreStep_cases s t hs
  · exact h
  · exact exec_inv h (h.rst_of_busy hbusy) he

/-- The registers reset meet the invariant, whatever the reset input is (70_reset_and_hazards R230). -/
theorem State.Inv.resetRegisters {s : State} (h : s.Inv) (rst : Bool) :
    State.Inv { s.resetRegisters with rst } :=
  (s.resetRegisters_atResetValues rst).inv rfl h.bufBytesValid

/-- A release of reset keeps the invariant. -/
theorem State.Inv.releaseResetStep {s : State} (h : s.Inv) : (releaseResetStep s).Inv := by
  obtain ⟨-, hr⟩ | ⟨-, hr⟩ := releaseResetStep_cases s <;> rw [hr]
  · exact h.resetRegisters false
  · exact h

/-- Taking a turn keeps the invariant. -/
theorem State.Inv.takeTurn {s : State} (h : s.Inv) : s.takeTurn.Inv := h.setAgents ..

/-- Settles O56: by the agent whose step it is. -/
theorem everyStepKeepsInvariant : Obligations.EveryStepKeepsInvariant := by
  intro s t h hs
  obtain ⟨-, hh⟩ | ⟨-, hc⟩ | ⟨-, rfl⟩ | ⟨-, rfl⟩ := step_cases s t hs
  · exact hostStep_inv h.takeTurn hh
  · exact coreStep_inv h.takeTurn hc
  · exact h.takeTurn.resetRegisters true
  · exact h.takeTurn.releaseResetStep

/-! ### A safe state does not stop -/

/-- With reset not asserted the host's step answers a next state. -/
theorem hostStep_next (s : State) (hrst : s.rst = false) : ∃ t, hostStep s = .next t := by
  unfold hostStep
  split
  · exact ⟨_, rfl⟩
  · exact ⟨_, hostAccess_next _ _ _ hrst⟩
  · exact ⟨_, hostAccess_next _ _ _ hrst⟩
  · exact ⟨_, rfl⟩

/-- A step of the host that makes no access answers a next state, also under reset. -/
theorem hostStep_next_of_no_access (s : State) (hturn : s.nextTurn = .host) (hnext : s.accessNext = false) :
    ∃ t, hostStep s.takeTurn = .next t := by
  unfold hostStep
  split
  · exact ⟨_, rfl⟩
  · next hp => simp_all [State.accessNext]
  · next hp => simp_all [State.accessNext]
  · exact ⟨_, rfl⟩

/-- With the invariant the core's step answers a next state: what is pending is the word of a command. -/
theorem coreStep_next (s : State) (h : s.Inv) : ∃ t, coreStep s = .next t := by
  cases hbusy : s.status.busy with
  | true =>
    obtain ⟨i, hi⟩ := h.pendingValid hbusy
    rw [coreStep_pending s _ i hbusy hi (decode_encode i)]
    exact exec_next i s
  | false => exact ⟨s, coreStep_idle s hbusy⟩

/-- Settles O57: by whose turn it is, and for the host by whether reset is asserted. -/
theorem safeStateNeverStops : Obligations.SafeStateNeverStops := by
  intro s hsafe
  unfold State.Runs
  cases hturn : s.nextTurn with
  | host =>
    rw [step_host s hturn]
    cases hrst : s.rst with
    | true => exact hostStep_next_of_no_access s hturn (hsafe.platform hrst)
    | false => exact hostStep_next s.takeTurn hrst
  | core =>
    rw [step_core s hturn]
    exact coreStep_next s.takeTurn hsafe.inv.takeTurn
  | assertReset => exact ⟨_, step_assertReset s hturn⟩
  | releaseReset => exact ⟨_, step_releaseReset s hturn⟩

/-! ### A pending command completes (60_exceptions R206, 20_memory R66) -/

/-- A state in which the command pending in another is still pending, on the same operands. -/
structure State.StillPending (s u : State) : Prop where
  busy : u.status.busy = s.status.busy
  pending : u.pending = s.pending
  h : u.h = s.h
  blk : u.blk = s.blk
  dbuf : u.dbuf = s.dbuf
  len : u.len = s.len
  num : u.num = s.num
  param : u.param = s.param

/-- What is pending stays pending over two stretches of moves when it does over each. -/
theorem State.StillPending.trans {s v u : State} (hsv : s.StillPending v) (hvu : v.StillPending u) :
    s.StillPending u where
  busy := hvu.busy.trans hsv.busy
  pending := hvu.pending.trans hsv.pending
  h := hvu.h.trans hsv.h
  blk := hvu.blk.trans hsv.blk
  dbuf := hvu.dbuf.trans hsv.dbuf
  len := hvu.len.trans hsv.len
  num := hvu.num.trans hsv.num
  param := hvu.param.trans hsv.param

/-- Taking a turn leaves a pending command as it is. -/
theorem State.stillPending_takeTurn (s : State) : s.StillPending s.takeTurn :=
  ⟨rfl, rfl, rfl, rfl, rfl, rfl, rfl, rfl⟩

/-- While a command is pending, a step that is neither the core's nor an assertion of reset answers a next state in
which it is still pending, and takes one turn. -/
theorem step_stillPending (s : State) (h : s.Inv) (hbusy : s.status.busy = true) (hcore : s.nextTurn ≠ .core)
    (hassert : s.nextTurn ≠ .assertReset) : ∃ v, step s = .next v ∧ s.StillPending v ∧ v.turns = s.turns.tail := by
  have hrst : s.rst = false := h.rst_of_busy hbusy
  cases hturn : s.nextTurn with
  | host =>
    obtain ⟨v, hv⟩ := hostStep_next s.takeTurn hrst
    refine ⟨v, (step_host s hturn).trans hv, ?_⟩
    obtain ⟨_, _, _, _, _, _, rfl⟩ := hostStep_busy s.takeTurn v hbusy hv
    exact ⟨⟨rfl, rfl, rfl, rfl, rfl, rfl, rfl, rfl⟩, rfl⟩
  | core => exact absurd hturn hcore
  | assertReset => exact absurd hturn hassert
  | releaseReset =>
    have hpass : releaseResetStep s.takeTurn = s.takeTurn := by simp [releaseResetStep, hrst]
    exact ⟨s.takeTurn, (step_releaseReset s hturn).trans (congrArg _ hpass), s.stillPending_takeTurn, rfl⟩

/-- On the core's turn one step completes the command in PENDING. -/
theorem run_one_of_core (s : State) (i : Instr) (hbusy : s.status.busy = true) (hi : s.pending = some (encode i))
    (hturn : s.nextTurn = .core) :
    ∃ t, Host.Core.run Sys2Proof.core 1 s = .next t ∧ exec i s.takeTurn = .next t := by
  obtain ⟨t, ht⟩ := exec_next i s.takeTurn
  have hstep : step s = .next t := by
    rw [step_core s hturn, coreStep_pending s.takeTurn _ i hbusy hi (decode_encode i), ht]
  exact ⟨t, core_run_succ 0 s t hstep, ht⟩

/-- The run to completion, by the turns listed before the core's. -/
theorem pending_completes (ts : List Turn) (i : Instr) (s : State) (hts : s.turns = ts) (h : s.Inv)
    (hbusy : s.status.busy = true) (hassert : Turn.assertReset ∉ ts) (hi : s.pending = some (encode i)) :
    ∃ k u t, k ≤ ts.length + 1 ∧ Host.Core.run Sys2Proof.core k s = .next t ∧ exec i u = .next t ∧
      s.StillPending u := by
  induction ts generalizing s with
  | nil =>
    have hturn : s.nextTurn = .core := by simp [State.nextTurn, hts, hbusy]
    obtain ⟨t, hrun, hexec⟩ := run_one_of_core s i hbusy hi hturn
    exact ⟨1, s.takeTurn, t, by simp, hrun, hexec, s.stillPending_takeTurn⟩
  | cons x xs ih =>
    have hturn : s.nextTurn = x := s.nextTurn_of_turns x xs hts
    obtain ⟨hx, hxs⟩ := not_or.mp (mt List.mem_cons.mpr hassert)
    by_cases hcore : x = .core
    · obtain ⟨t, hrun, hexec⟩ := run_one_of_core s i hbusy hi (hturn.trans hcore)
      exact ⟨1, s.takeTurn, t, by simp, hrun, hexec, s.stillPending_takeTurn⟩
    · obtain ⟨v, hstep, hsv, hturns⟩ := step_stillPending s h hbusy (by rwa [hturn]) (by rw [hturn]; exact Ne.symm hx)
      obtain ⟨k, u, t, hk, hrun, hexec, hvu⟩ := ih v (by rw [hturns, hts]; rfl)
        (everyStepKeepsInvariant s v h hstep) (hsv.busy.trans hbusy) hxs (hsv.pending.trans hi)
      exact ⟨k + 1, u, t, by simpa using hk, (core_run_succ k s v hstep).trans hrun, hexec, hsv.trans hvu⟩

/-- Settles O58: each turn before the core's leaves the command pending on its operands, and the core's completes it. -/
theorem pendingCommandCompletesOnLaunchOperands : Obligations.PendingCommandCompletesOnLaunchOperands := by
  intro s h hbusy hassert
  obtain ⟨i, hi⟩ := h.pendingValid hbusy
  obtain ⟨k, u, t, hk, hrun, hexec, hu⟩ := pending_completes s.turns i s rfl h hbusy hassert hi
  obtain ⟨hidle, -⟩ := exec_ends_idle i u t hexec
  exact ⟨k, i, u, t, hk, hi, hrun, hexec, hidle, hu.h, hu.blk, fun a => by rw [hu.dbuf], hu.len, hu.num, hu.param⟩

end Sys2Proof.Machine
